-- ==== Sys2Proof/Word.lean ====
section
/-! DEFINITION. The word types of the machine: registers, bytes and addresses. -/

namespace Sys2Proof

/-- A 64-bit register (RAX, RCX): 10_state.md R12, R13. -/
abbrev Word := BitVec 64

/-- A 32-bit register (EAX, ECX, EDX): 00_scope.md R5, "EAX and ECX are 32 bits". -/
abbrev Dword := BitVec 32

/-- The smallest addressable unit: 20_memory.md R41, "one memory address space of bytes". -/
abbrev Byte := BitVec 8

/-! The parameter type `Addr` of 00_scope.md R5 is taken to be `Nat`: no width and no size of the
address space is given (DESIGN CHOICE, log 9; safe: no address is out of range). -/

end Sys2Proof
end

