-- ==== Sys2Proof/Config.lean ====
section
/-! DEFINITION. What an implementation fixes, and the free values: the parameters of 00_scope.md R5,
with the plain data types they speak of. -/

namespace Sys2Proof

/-- The five operating modes: 00_scope.md R3, 10_state.md R17. -/
inductive Mode where
  | real    -- real-address mode
  | prot    -- protected mode, not virtual-8086, not IA-32e
  | v86     -- virtual-8086 mode
  | compat  -- compatibility mode
  | long64  -- 64-bit mode
  deriving DecidableEq, Repr, Inhabited

/-- The possible members of `PEND`: 10_state.md R24, 60_exceptions.md R126. -/
inductive Event where
  | extint (i : Nat)  -- an external interrupt of identity i
  | nmi
  | smi
  | db     -- a debug exception
  | mc     -- a machine check exception
  | binit
  | init
  | reset
  deriving DecidableEq, Repr, Inhabited

/-- The complete list of synchronous exceptions: 60_exceptions.md R122. -/
inductive Exn where
  | ud  -- the invalid-opcode exception (R120)
  | gp  -- the general-protection exception (R121)
  deriving DecidableEq, Repr, Inhabited

/-- What is handed to `TrapEntry`: `{exception, error_code, pc_of_faulting_instruction}` for a
raised exception (60_exceptions.md R124), `{event, return_pc}` for a delivered event (R128). -/
inductive TrapRecord where
  | exn (x : Exn) (errorCode : Option Nat) (pc : Nat)
  | event (e : Event) (returnPc : Nat)
  deriving DecidableEq, Repr, Inhabited

/-- The registers, the flag, the mode and the privilege level of P (10_state.md R10, R15), which
`TrapEntry`, `ResetState` and `InitState` may replace as a whole. `pc` is a number below
`2 ^ IPW(mode)` (R14): its width is a parameter that depends on the mode. -/
structure Cpu where
  rax     : Word
  rcx     : Word
  edx     : Dword
  pc      : Nat
  intFlag : Bool
  mode    : Mode
  cpl     : Fin 4
  deriving DecidableEq, Repr, Inhabited

/-- The address range MONITOR arms: a set of addresses, "a non-empty set" (10_state.md R22),
non-empty by construction. That it is finite is the model's choice (DESIGN CHOICE, log 13): the spec
leaves size and shape open (91_not_in_source.md N14). -/
structure Range where
  first : Nat
  more  : List Nat
  deriving DecidableEq, Repr, Inhabited

/-- What a signal replaces P's state by, beside the fields the spec fixes (`MON`, `WAITING`): the
registers, `PEND`, unspecified after reset (10_state.md R27), and what the platform lets through,
the interrupt mask of 70_reset_and_hazards.md R161. That both sets are finite is the model's choice
(DESIGN CHOICE, logs 35 and 14). -/
structure SignalState where
  cpu      : Cpu
  pend     : List Event
  unmasked : List Event
  deriving DecidableEq, Repr, Inhabited

/-- The configuration of the machine: data no step writes (00_scope.md R5; log 5). The first three
are the CPUID bits (10_state.md R18, R19); `guest` says that P runs as a guest (60_exceptions.md
R133); then `IPW` of each mode (10_state.md R14); the parameters `ResetState` and `InitState`
(60_exceptions.md R130), with `initTriggered` saying which of the two not armed values `MON` has in
`InitState`; and `ranges`, the values of the parameter `MonitorRange` that are fixed, by address
(10_state.md R22; log 13). -/
structure Cfg where
  cpuid01Ecx3 : Bool
  cpuid05Ecx0 : Bool
  cpuid05Ecx1 : Bool
  guest       : Bool
  ipReal      : Nat
  ipProt      : Nat
  ipV86       : Nat
  ipCompat    : Nat
  ipLong64    : Nat
  resetState  : SignalState
  initState   : SignalState
  initTriggered : Bool
  ranges      : List (Nat × Range)
  deriving DecidableEq, Repr, Inhabited

/-- `IPW(mode)`: 00_scope.md R5. -/
def Cfg.ipw (c : Cfg) : Mode → Nat
  | .real   => c.ipReal
  | .prot   => c.ipProt
  | .v86    => c.ipV86
  | .compat => c.ipCompat
  | .long64 => c.ipLong64

/-- The registers after RESET# of the Intel 64 and IA-32 family (PRESUMED, log 6; unsafe): the spec
gives none (10_state.md R27). -/
def Cpu.familyReset : Cpu :=
  { rax := 0, rcx := 0, edx := 0x00000600, pc := 0xFFF0, intFlag := false, mode := .real, cpl := 0 }

/-- The same with nothing pending and every event masked by the platform (DESIGN CHOICE, log 8;
unsafe). -/
def SignalState.familyReset : SignalState := { cpu := Cpu.familyReset, pend := [], unmasked := [] }

/-- The configuration `State.reset` carries: the three CPUID bits 1 and no guest (DESIGN CHOICE,
log 7; unsafe), the family's widths and registers (PRESUMED, log 6; unsafe), `MON = IDLE` after
INIT# (DESIGN CHOICE, log 7), and no range fixed, so that `MonitorRange` is the free value. -/
def Cfg.atReset : Cfg :=
  { cpuid01Ecx3 := true, cpuid05Ecx0 := true, cpuid05Ecx1 := true, guest := false,
    ipReal := 16, ipProt := 32, ipV86 := 16, ipCompat := 32, ipLong64 := 64,
    resetState := SignalState.familyReset, initState := SignalState.familyReset,
    initTriggered := false, ranges := [] }

/-! Free values. Nothing in Lean can evaluate one or prove a value of one (log 4). -/

/-- The choice P's turn makes when no turn of the script names it: the `choose` of 60_exceptions.md
R128, the liberty of 40_mwait.md R95. Applied to the counter `draws`. -/
opaque Config.freePick : Nat → Nat

/-- The parameter `TrapEntry` (60_exceptions.md R124, 92_eei_decisions.md D6): the registers after
it, from the record handed to it, the registers before it, and the counter `draws` for all else it
may depend on (log 15). -/
opaque Config.trapEntry : TrapRecord → Cpu → Nat → Cpu

/-- The registers after the return from a handler, as far as the spec leaves them open
(60_exceptions.md R125; log 16). -/
opaque Config.handlerReturn : TrapRecord → Cpu → Nat → Cpu

/-- The parameter `MonitorRange` (10_state.md R22) at the addresses where the configuration fixes
none: the first address of the range, and for each further one how many addresses are left out
before it. A function of the address alone, so the same in the whole run (log 13). -/
opaque Config.monitorRange : Nat → Nat × List Nat

/-- `OptimizedState(EAX, ECX)` of 00_scope.md R5: which state is entered; no rule reads it
(40_mwait.md R90), and no definition of the model does. -/
opaque Config.optimizedState : Dword → Dword → Nat

end Sys2Proof
end

