-- ==== Sys2Proof/Syntax.lean ====
section
/-! DEFINITION. The instructions: one constructor per row of spec/opcode_table.json. -/

namespace Sys2Proof

/-- The one instruction in scope (00_scope.md R1, R4). MWAIT has no explicit operand and no
immediate (30_encoding.md R64), so its constructor has no field. -/
inductive Instr where
  | mwait  -- 0F 01 C9, format ZO (R60)
  deriving DecidableEq, Repr

/-- The assembler's name, written with no operands: 30_encoding.md R68. -/
def Instr.mnemonic : Instr → String
  | .mwait => "MWAIT"

end Sys2Proof
end

