-- ==== Sys2Proof/WellFormed.lean ====
section
/-! DEFINITION. Well-formed instructions and well-formed configuration data. An instruction of this
hardware has no field that could be ill formed; the checks are on the data the environment and the
configuration supply. -/

namespace Sys2Proof

/-- MWAIT has no operand to check (30_encoding.md R64, R66: "There is no reserved bit in the
instruction bytes"). -/
def Instr.wellFormed : Instr → Bool
  | .mwait => true

/-- A set of addresses is written in strictly ascending order, so that equal sets are equal data. -/
def ascending : List Nat → Bool
  | [] => true
  | [_] => true
  | a :: b :: l => decide (a < b) && ascending (b :: l)

/-- The addresses of an armed range (10_state.md R22), strictly ascending. -/
def Range.wellFormed (r : Range) : Bool := ascending (r.first :: r.more)

/-- The registers fit a configuration: `pc` has `IPW(MODE)` bits (10_state.md R14). -/
def Cpu.fits (cpu : Cpu) (c : Cfg) : Bool := decide (cpu.pc < 2 ^ c.ipw cpu.mode)

/-- The registers fit, and `PEND` is a set (10_state.md R24). -/
def SignalState.wellFormed (p : SignalState) (c : Cfg) : Bool :=
  p.cpu.fits c && decide p.pend.Nodup

/-- A configuration whose `ResetState` and `InitState` are states and whose ranges are sets. -/
def Cfg.wellFormed (c : Cfg) : Bool :=
  c.resetState.wellFormed c && c.initState.wellFormed c && c.ranges.all fun p => p.2.wellFormed

end Sys2Proof
end

