-- ==== Sys2Proof/Decode.lean ====
section
/-! DEFINITION. The decoder, total on any bytes, rejecting by name; after it the encoder. -/

namespace Sys2Proof

/-- Why bytes are not the bare MWAIT. Each is the decoder's verdict "not MWAIT", "a statement about
the decoder, not about the processor" (30_encoding.md R62). -/
inductive DecodeError where
  | notMwait           -- other bytes (R62)
  | startsWithPrefix   -- the first byte is a prefix byte: a prefixed form is refused (R65)
  | truncated          -- the admitted text ends before a verdict (95_test_vectors.md E10)
  deriving DecidableEq, Repr

/-- The prefix bytes (PRESUMED, log 23; safe: the verdict is a refusal either way): operand size,
address size, repeat, lock, segment overrides, and REX, the kinds 30_encoding.md R65 names. -/
def isPrefixByte (b : Byte) : Bool :=
  b == 0x66 || b == 0x67 || b == 0xF2 || b == 0xF3 || b == 0xF0 ||
  b == 0x26 || b == 0x2E || b == 0x36 || b == 0x3E || b == 0x64 || b == 0x65 ||
  b.extractLsb 7 4 == 0x4#4

/-- 30_encoding.md R62: bytes are MWAIT if and only if the first three are `0F 01 C9` and no prefix
byte precedes them. The rest of the bytes is handed back. -/
def decode : List Byte → Except DecodeError (Instr × List Byte)
  | [] => .error .truncated
  | b0 :: l0 =>
    if isPrefixByte b0 then .error .startsWithPrefix
    else if b0 = 0x0F then
      match l0 with
      | [] => .error .truncated
      | b1 :: l1 =>
        if b1 = 0x01 then
          match l1 with
          | [] => .error .truncated
          | b2 :: l2 => if b2 = 0xC9 then .ok (.mwait, l2) else .error .notMwait
        else .error .notMwait
    else .error .notMwait

/-- The encoder: the bytes at ascending addresses (30_encoding.md R60, 20_memory.md R48). -/
def encode : Instr → List Byte
  | .mwait => [0x0F, 0x01, 0xC9]

/-- The instruction length in bytes: 30_encoding.md R63. -/
def Instr.length (i : Instr) : Nat := (encode i).length

/-- The longest instruction, in bytes (30_encoding.md R63: the source gives no other length). -/
def maxLength : Nat := 3

/-- The `n` low bytes of `w`, the most significant first. -/
def bytesFromTop (w : Nat) : Nat → List Byte
  | 0 => []
  | n + 1 => BitVec.ofNat 8 (w / 256 ^ n) :: bytesFromTop w n

/-- The bytes of an opcode-table word at ascending addresses. The table writes its one 24-bit word
with the byte at the lowest address in the most significant position (its byte_order_note; log 22);
bytes above `nbits` up to the longest instruction are 0. -/
def tableBytes (nbits w : Nat) : List Byte :=
  bytesFromTop w (nbits / 8) ++ List.replicate (maxLength - nbits / 8) 0

/-- The instruction the decoder reads from an instruction whose bits are `w`, numbered as
spec/opcode_table.json numbers them; none where it refuses. -/
def decodeTableWord (nbits w : Nat) : Option Instr :=
  match decode (tableBytes nbits w) with
  | .ok (i, _) => some i
  | .error _ => none

end Sys2Proof
end

