-- ==== Sys2Proof/Machine/State.lean ====
section
/-! DEFINITION. The state of the machine, its reset value, its faults and its refusals. -/

namespace Sys2Proof.Machine

/-- `MON` with the `RANGE` that is meaningful only while armed: 10_state.md R21, R22. -/
inductive Monitor where
  | idle
  | armed (range : Range)
  | triggered
  deriving DecidableEq, Repr

/-- `WCTX`: what the exit conditions need of the operands MWAIT was executed with (10_state.md R23). -/
structure WaitCtx where
  hints : Dword
  ext0  : Bool
  deriving DecidableEq, Repr

/-- A handler that was entered and has not returned: the record handed to `TrapEntry` and the mode
the interrupted code ran in (60_exceptions.md R124, R125, R128; log 16). -/
structure Frame where
  record : TrapRecord
  mode   : Mode
  deriving DecidableEq, Repr

/-- The originator of a store: 20_memory.md R42. -/
inductive Agent where
  | proc     -- a processor agent other than P
  | nonproc  -- a non-processor agent
  | self     -- P itself
  deriving DecidableEq, Repr

/-- The store event `Store(agent, a, n)` with the bytes stored, at least one (20_memory.md R42). -/
structure StoreEvent where
  agent : Agent
  addr  : Nat
  byte0 : Byte
  more  : List Byte
  deriving DecidableEq, Repr

/-- The accesses 20_memory.md R47 says have no effect on `MON`. -/
inductive AccessKind where
  | load
  | fetch
  | prefetch
  | cacheOp
  deriving DecidableEq, Repr

/-- One turn of the schedule: which agent of 10_state.md R11 moves, and what it does. Where the
spec leaves a choice open the turn carries the choice as data (log 2). -/
inductive Turn where
  /-- P's next step: `WAIT-EXIT` while it waits, else what 60_exceptions.md R123 and R128 let it
  choose; `pick` resolves the choice. -/
  | self (pick : Nat)
  /-- MONITOR, given the address `a`, arms `r = MonitorRange(a)` successfully: `Arm(r)`,
  10_state.md R22. -/
  | arm (a : Nat)
  /-- MONITOR does not arm: `ArmFail`, 10_state.md R22. -/
  | armFail
  /-- The handler entered last returns, by whatever mechanism: 60_exceptions.md R125. -/
  | handlerReturn
  /-- A store event; `seen` resolves the choices of 20_memory.md R44 and R45. -/
  | store (st : StoreEvent) (seen : Bool)
  /-- An access that is no store: 20_memory.md R47. -/
  | access (kind : AccessKind) (agent : Agent) (a n : Nat)
  /-- `Raise(e)`: 10_state.md R11, R24. -/
  | raise (e : Event)
  /-- The environment removes `e` from `PEND`: 10_state.md R24. -/
  | withdraw (e : Event)
  /-- The platform's masking changes: which events it lets through, apart from `IF`
  (60_exceptions.md R127; log 14). -/
  | setUnmasked (l : List Event)
  /-- `Spurious` with the `WAIT-EXIT` it licences: 10_state.md R11, 40_mwait.md R95. -/
  | spurious
  deriving DecidableEq, Repr

/-- Memory: (address, byte) pairs, addresses strictly rising; an unlisted address holds no value
(DESIGN CHOICE, log 10; safe). -/
abbrev Memory := List Host.Cell

/-- The state of 10_state.md R10, with the configuration, memory, and the model's own fields
`owed`, `script` and `draws`. -/
structure State where
  /-- RAX, RCX, EDX, pc, IF, MODE, CPL. -/
  cpu      : Cpu
  /-- `MON`, with `RANGE` while armed. -/
  mon      : Monitor
  /-- `WAITING` (present or not) with `WCTX`. -/
  wait     : Option WaitCtx
  /-- `Duty` held in an earlier state of this wait (40_mwait.md R102; log 3). -/
  owed     : Bool
  /-- `PEND`, a set, without repeats (10_state.md R24). That it is finite is the model's choice
  (DESIGN CHOICE, log 35). -/
  pend     : List Event
  /-- The events the platform does not mask, apart from `IF` (60_exceptions.md R127; log 14). That
  they are finitely many, so that not every `EXTINT(i)` is let through at once, is the model's choice
  (DESIGN CHOICE, log 14). -/
  unmasked : List Event
  /-- Handed to `TrapEntry`, which has not acted yet (60_exceptions.md R124; log 15). -/
  trap     : Option TrapRecord
  /-- The handlers entered and not returned from, the latest first (log 16). -/
  frames   : List Frame
  /-- Memory. -/
  mem      : Memory
  /-- The addresses of the program text (10_state.md R26, 20_memory.md R56; log 11). -/
  text     : List Nat
  /-- The turns still to come (log 2). -/
  script   : List Turn
  /-- The counter the free values are applied to (log 4). -/
  draws    : Nat
  /-- The configuration, which no step writes (00_scope.md R5). -/
  cfg      : Cfg
  deriving DecidableEq, Repr

/-- Why the machine stops with a fault. -/
inductive Fault where
  /-- Raised by `exec` on a state with `WAITING`: the precondition of 40_mwait.md R80 fails, and
  10_state.md R11 says P executes no instruction then. `step` never raises it. Safe (log 24). -/
  | executeWhileWaiting
  deriving DecidableEq, Repr

/-- Why the model gives no meaning. Each but the first is a refusal the spec itself asks for. -/
inductive Refusal where
  /-- Raised by an arm of `exec` that has no meaning yet: none. Safe. -/
  | notModelled (mnemonic : String)
  /-- Raised by the fetch: the bytes at `pc` are not MWAIT (30_encoding.md R62). Safe. -/
  | notMwait
  /-- Raised by the fetch: a prefix byte stands at `pc` (30_encoding.md R65). Safe. -/
  | prefixedForm
  /-- Raised by the fetch: the program text ends before a verdict (95_test_vectors.md E10). Safe. -/
  | endOfText
  /-- Raised by the fetch: three bytes at `pc` would straddle the top of the instruction-pointer
  space (10_state.md R14). Safe. -/
  | straddlesTop
  /-- Raised by MWAIT in the SMI handler (60_exceptions.md R129). Safe. -/
  | inSystemManagementMode
  /-- Raised by MWAIT in a virtual-machine guest (60_exceptions.md R133). Safe. -/
  | inGuest
  /-- Raised by a store event that writes a byte of the program text (20_memory.md R56). Safe. -/
  | storeToProgramText
  deriving DecidableEq, Repr

/-- One step's answer. -/
abbrev Result := Host.Outcome State Fault Refusal

/-- The machine right after reset. `MON = IDLE` and `WAITING = false` are the spec's (10_state.md
R27, 70_reset_and_hazards.md R160); the rest it leaves open: logs 6, 7, 8, 10, 11, 15, 16. -/
def State.reset : State :=
  { cpu := Cfg.atReset.resetState.cpu, mon := .idle, wait := none, owed := false,
    pend := Cfg.atReset.resetState.pend, unmasked := Cfg.atReset.resetState.unmasked, trap := none,
    frames := [], mem := [], text := [], script := [], draws := 0, cfg := Cfg.atReset }

/-! One setter per field, so that later proofs never unfold a record update. -/

def State.setCpu (s : State) (v : Cpu) : State := { s with cpu := v }

def State.setMon (s : State) (v : Monitor) : State := { s with mon := v }

def State.setWait (s : State) (v : Option WaitCtx) : State := { s with wait := v }

def State.setOwed (s : State) (v : Bool) : State := { s with owed := v }

def State.setPend (s : State) (v : List Event) : State := { s with pend := v }

def State.setUnmasked (s : State) (v : List Event) : State := { s with unmasked := v }

def State.setTrap (s : State) (v : Option TrapRecord) : State := { s with trap := v }

def State.setFrames (s : State) (v : List Frame) : State := { s with frames := v }

def State.setMem (s : State) (v : Memory) : State := { s with mem := v }

def State.setText (s : State) (v : List Nat) : State := { s with text := v }

def State.setScript (s : State) (v : List Turn) : State := { s with script := v }

def State.setDraws (s : State) (v : Nat) : State := { s with draws := v }

/-- Write of the instruction pointer: `pc <- v` (00_scope.md R9). -/
def State.setPc (s : State) (v : Nat) : State := s.setCpu { s.cpu with pc := v }

end Sys2Proof.Machine
end

