-- ==== Sys2Proof/Machine/Operands.lean ====
section
/-! DEFINITION. MWAIT's implicit operands: the fields of the extensions register (Table 4-10) and of
the hints register (Table 4-11). -/

namespace Sys2Proof.Machine

/-- `EAX = RAX[31:0]`: 10_state.md R12. `RAX[63:32]` is ignored in every mode. -/
def eax (cpu : Cpu) : Dword := cpu.rax.extractLsb 31 0

/-- `ECX = RCX[31:0]`: 10_state.md R13. -/
def ecx (cpu : Cpu) : Dword := cpu.rcx.extractLsb 31 0

/-- The reserved bits of the extensions register are not all 0: `RCX[63:1]` in 64-bit mode,
`ECX[31:1]` in every other mode (40_mwait.md R84, R88; 90_conflicts.md C3). -/
def reservedSet (cpu : Cpu) : Bool :=
  match cpu.mode with
  | .long64 => cpu.rcx.extractLsb 63 1 != 0#63
  | .real | .prot | .v86 | .compat => (ecx cpu).extractLsb 31 1 != 0#31

/-- `ext[0]`, interrupts as break events even if masked: the same bit of ECX and of RCX
(10_state.md R13, 40_mwait.md R88). -/
def ext0 (cpu : Cpu) : Bool := (ecx cpu).getLsbD 0

/-- `SubCState(h) = h[3:0]`: 40_mwait.md R89. -/
def subCState (h : Dword) : Nat := (h.extractLsb 3 0).toNat

/-- The field `h[7:4]`: 40_mwait.md R89. -/
def targetField (h : Dword) : Nat := (h.extractLsb 7 4).toNat

/-- The number of the target C-state: 15 means C0, 0 means C1, 1 means C2 and so on
(40_mwait.md R89; 90_conflicts.md C2). -/
def targetCState (h : Dword) : Nat := if targetField h = 15 then 0 else targetField h + 1

/-- The reserved bits `h[31:8]`: 40_mwait.md R89. -/
def hintReserved (h : Dword) : Nat := (h.extractLsb 31 8).toNat

/-- `AllStoresWake(h)`: when a store by a non-processor agent must end the wait (20_memory.md R44). -/
def allStoresWake (c : Cfg) (h : Dword) : Bool :=
  hintReserved h == 0 && (targetField h == 0 || targetField h == 15) && (c.cpuid05Ecx0 || h == 0)

/-- The registers after the intrinsic `_mm_mwait(extensions, hints)` has loaded its arguments:
extensions to ECX, hints to EAX, the upper halves cleared (30_encoding.md R69, G10; log 33). -/
def intrinsicArgs (extensions hints : Dword) (cpu : Cpu) : Cpu :=
  { cpu with rcx := extensions.zeroExtend 64, rax := hints.zeroExtend 64 }

end Sys2Proof.Machine
end

