-- ==== Sys2Proof/Machine/Flags.lean ====
section
/-! DEFINITION. The one flag the spec names, EFLAGS.IF, in what it decides: which pending event is
masked, and when the wait is obliged to end. MWAIT writes no flag (10_state.md R16). -/

namespace Sys2Proof.Machine

/-- BINIT#, INIT# and RESET#, which are not delivered but replace P's state (60_exceptions.md R130). -/
def Event.isSignal : Event → Bool
  | .binit | .init | .reset => true
  | .extint _ | .nmi | .smi | .db | .mc => false

/-- An external interrupt, the events `IF` masks (60_exceptions.md R127). -/
def Event.isExternal : Event → Bool
  | .extint _ => true
  | .nmi | .smi | .db | .mc | .binit | .init | .reset => false

/-- The event is not masked. For `EXTINT(i)` this is `Deliverable(s, i)`: the platform lets it
through and `IF = 1`; `IF = 0` masks it, `IF = 1` alone is not enough (60_exceptions.md R127, R128;
log 14). The let-through events are a finite list (DESIGN CHOICE, log 14). -/
def State.notMasked (s : State) (e : Event) : Bool :=
  s.unmasked.contains e && (s.cpu.intFlag || !Event.isExternal e)

/-- The events that end the wait whatever the flags, the extension and the hints
(40_mwait.md R93). -/
def Event.endsWait : Event → Bool
  | .nmi | .smi | .db | .mc | .binit | .init | .reset => true
  | .extint _ => false

/-- `MON = ARMED`. Every rule tests only this (10_state.md R21). -/
def Monitor.isArmed : Monitor → Bool
  | .armed _ => true
  | .idle | .triggered => false

/-- `DutyUncond(s)`: 40_mwait.md R93. -/
def State.dutyUncond (s : State) : Bool := !s.mon.isArmed || s.pend.any Event.endsWait

/-- `DutyInt(s)`: some pending external interrupt is deliverable or `WCTX.ext0 = 1`
(40_mwait.md R94). -/
def State.dutyInt (s : State) (w : WaitCtx) : Bool :=
  s.pend.any fun e => Event.isExternal e && (s.notMasked e || w.ext0)

/-- `Duty(s)`, meaningful only while `WAITING`: 40_mwait.md R94. -/
def State.duty (s : State) : Bool :=
  match s.wait with
  | none => false
  | some w => s.dutyUncond || s.dutyInt w

/-- What P may take before its next instruction: a pending event that is not masked, to deliver it
(60_exceptions.md R128), and a pending signal, which nothing masks and which replaces P's state
(R130). -/
def State.takeable (s : State) : List Event :=
  s.pend.filter fun e => Event.isSignal e || s.notMasked e

end Sys2Proof.Machine
end

