-- ==== Sys2Proof/Machine/Ops.lean ====
section
/-! DEFINITION. The named operations over memory, the monitor hardware, the wait, the pending events
and the registers; taking an exception and returning from a handler. -/

namespace Sys2Proof.Machine

/-! ### Memory -/

/-- The byte at `a`; an unlisted address holds no value (log 10). -/
def Memory.read : Memory → Nat → Option Byte
  | [], _ => none
  | (k, b) :: m, a => if k = a then some b else Memory.read m a

/-- Write of one byte, keeping the addresses strictly rising. -/
def Memory.write : Memory → Nat → Byte → Memory
  | [], a, v => [(a, v)]
  | (k, b) :: m, a, v =>
    if a < k then (a, v) :: (k, b) :: m
    else if a = k then (a, v) :: m
    else (k, b) :: Memory.write m a v

/-- Write of bytes at ascending addresses (20_memory.md R42). -/
def Memory.writeBytes (m : Memory) (a : Nat) : List Byte → Memory
  | [] => m
  | v :: vs => Memory.writeBytes (Memory.write m a v) (a + 1) vs

/-- The canonical form: addresses strictly rising. -/
def Memory.wf (m : Memory) : Bool := ascending (m.map Prod.fst)

/-! ### Address ranges and store events -/

/-- Membership in a range: 10_state.md R22. -/
def Range.has (r : Range) (a : Nat) : Bool := (r.first :: r.more).contains a

/-- The bytes stored. -/
def StoreEvent.bytes (st : StoreEvent) : List Byte := st.byte0 :: st.more

/-- The addresses `a, a+1, ..., a+n-1` stored to: 20_memory.md R42. -/
def StoreEvent.addrs (st : StoreEvent) : List Nat :=
  (List.range st.bytes.length).map (st.addr + ·)

/-- The stored bytes overlap the range in at least one byte: 20_memory.md R42. -/
def StoreEvent.overlaps (st : StoreEvent) (r : Range) : Bool := st.addrs.any (Range.has r)

/-- The store event sets `P.MON <- TRIGGERED`: the monitor is armed, the bytes overlap the range
(20_memory.md R42), and the agent's condition holds: always for another processor (R43); for a
non-processor agent when P does not wait or `AllStoresWake`, else as `seen` chooses (R44, R46); for
P itself as `seen` chooses (R45). -/
def State.storeTriggers (s : State) (st : StoreEvent) (seen : Bool) : Bool :=
  match s.mon with
  | .armed r =>
    st.overlaps r &&
      match st.agent with
      | .proc => true
      | .nonproc =>
        match s.wait with
        | none => true
        | some w => allStoresWake s.cfg w.hints || seen
      | .self => seen
  | .idle | .triggered => false

/-- The effect of a store event on memory and on the monitor hardware; it changes no other field
(20_memory.md R42). The store reaches memory and the monitor at once (log 12). -/
def State.storeEffect (s : State) (st : StoreEvent) (seen : Bool) : State :=
  (if s.storeTriggers st seen then s.setMon .triggered else s).setMem
    (s.mem.writeBytes st.addr st.bytes)

/-! ### The monitor hardware and the wait -/

/-- The addresses that follow `a` when `gaps` says how many are left out before each. -/
def addrsAfter (a : Nat) : List Nat → List Nat
  | [] => []
  | g :: gs => (a + g + 1) :: addrsAfter (a + g + 1) gs

/-- `MonitorRange(a)`: what the configuration fixes for `a`, else the free value
(10_state.md R22, R26; log 13). It depends on nothing that a step writes. -/
def State.monitorRange (s : State) (a : Nat) : Range :=
  match s.cfg.ranges.lookup a with
  | some r => r
  | none => { first := (Config.monitorRange a).1
              more := addrsAfter (Config.monitorRange a).1 (Config.monitorRange a).2 }

/-- `Arm(r)` for `r = MonitorRange(a)`: `MON <- ARMED`, `RANGE <- r`; a second one replaces the
range (10_state.md R22). -/
def State.arm (s : State) (a : Nat) : State := s.setMon (.armed (s.monitorRange a))

/-- `ArmFail`: `MON <- IDLE` (10_state.md R22). -/
def State.armFail (s : State) : State := s.setMon .idle

/-- `pc <- pc + 3` modulo `2^IPW(MODE)`: 10_state.md R14, 30_encoding.md R63. -/
def State.advancePc (s : State) : State :=
  s.setPc ((s.cpu.pc + Instr.length .mwait) % 2 ^ s.cfg.ipw s.cpu.mode)

/-- Entering the wait: `WCTX`, `WAITING <- true`, `pc <- pc + 3` (40_mwait.md R92). -/
def State.enterWait (s : State) : State :=
  (s.setWait (some { hints := eax s.cpu, ext0 := ext0 s.cpu })).advancePc

/-- Completing without a wait: `MON <- TRIGGERED`, `pc <- pc + 3` (40_mwait.md R91). -/
def State.completeMwait (s : State) : State := (s.setMon .triggered).advancePc

/-- `WAIT-EXIT`: `WAITING <- false`, `MON <- TRIGGERED`, whatever ended the wait
(40_mwait.md R96). -/
def State.waitExit (s : State) : State := ((s.setWait none).setOwed false).setMon .triggered

/-! ### Pending events -/

/-- `Raise(e)` adds `e` to the set `PEND`: 10_state.md R11, R24. -/
def State.raiseEvent (s : State) (e : Event) : State :=
  s.setPend (if s.pend.contains e then s.pend else s.pend ++ [e])

/-- `e` is removed from `PEND`: 10_state.md R24, 60_exceptions.md R128. -/
def State.dropEvent (s : State) (e : Event) : State := s.setPend (s.pend.filter (· != e))

/-! ### Taking an exception, delivering an event, returning -/

/-- The error code handed over: none for #UD, 0 for #GP, none stated in real-address mode
(60_exceptions.md R120, R121, R122). -/
def errorCode (m : Mode) : Exn → Option Nat
  | .ud => none
  | .gp =>
    match m with
    | .real => none
    | .prot | .v86 | .compat | .long64 => some 0

/-- Hands a record to `TrapEntry`: 60_exceptions.md R124, R128. -/
def State.handOver (s : State) (r : TrapRecord) : State := s.setTrap (some r)

/-- `raise`: no field of `s` that the spec names is changed and `pc` stays at the first byte of the
instruction; the record goes to `TrapEntry` (60_exceptions.md R124). -/
def State.raiseExn (s : State) (x : Exn) : State :=
  s.handOver (.exn x (errorCode s.cpu.mode x) s.cpu.pc)

/-- Delivery of a pending event: removed from `PEND`, handed to `TrapEntry` with `return_pc = pc`
(60_exceptions.md R128). -/
def State.deliver (s : State) (e : Event) : State :=
  (s.dropEvent e).handOver (.event e s.cpu.pc)

/-- Registers whose instruction pointer has the width of their mode (10_state.md R14). -/
def Cfg.fit (c : Cfg) (cpu : Cpu) : Cpu := { cpu with pc := cpu.pc % 2 ^ c.ipw cpu.mode }

/-- `TrapEntry` acts on the record handed to it: the registers become a free value, and the record
is kept for the return. Monitor, pending events and memory stay (10_state.md R21; log 15). -/
def State.trapEntry (s : State) (r : TrapRecord) : State :=
  ((s.setFrames (⟨r, s.cpu.mode⟩ :: s.frames)).setTrap none).setCpu
    (Cfg.fit s.cfg (Config.trapEntry r s.cpu s.draws))

/-- The registers after the return from a handler. The handler of an event returns to `return_pc`
in the mode of the interrupted code (60_exceptions.md R125, R129, 40_mwait.md R97; log 16); all
else, and the whole return from an exception's handler, is a free value. -/
def returnCpu (c : Cfg) (f : Frame) (cpu : Cpu) (draw : Nat) : Cpu :=
  match f.record with
  | .event _ pc => { Config.handlerReturn f.record cpu draw with pc := pc, mode := f.mode }
  | .exn _ _ _ => Cfg.fit c (Config.handlerReturn f.record cpu draw)

/-- The handler entered last returns; with none entered nothing happens. The monitor is one for P,
not one per nesting level (60_exceptions.md R125), so it stays. -/
def State.returnFromHandler (s : State) : State :=
  match s.frames with
  | [] => s
  | f :: fs => (s.setFrames fs).setCpu (returnCpu s.cfg f s.cpu s.draws)

/-- P is inside the SMI handler: an SMI was delivered and its handler has not returned
(60_exceptions.md R129; log 17). -/
def State.inSmm (s : State) : Bool :=
  s.frames.any fun f =>
    match f.record with
    | .event .smi _ => true
    | .event _ _ | .exn _ _ _ => false

/-! ### RESET#, INIT#, BINIT# -/

/-- P's state is replaced by `p`, with the monitor hardware at `m`; no wait, no exception and no
handler remains (60_exceptions.md R130; log 19). -/
def State.reinit (s : State) (p : SignalState) (m : Monitor) : State :=
  (((((((s.setCpu (Cfg.fit s.cfg p.cpu)).setMon m).setWait none).setOwed false).setTrap
    none).setFrames []).setPend p.pend).setUnmasked p.unmasked

/-- RESET#: `ResetState`, in which `MON = IDLE` and `WAITING = false` (70_reset_and_hazards.md R160). -/
def State.resetSignal (s : State) : State := s.reinit s.cfg.resetState .idle

/-- INIT# or BINIT#: `InitState`, in which `WAITING = false` and `MON != ARMED`
(60_exceptions.md R130). -/
def State.initSignal (s : State) : State :=
  s.reinit s.cfg.initState (if s.cfg.initTriggered then .triggered else .idle)

/-- P takes a pending signal. -/
def State.takeSignal (s : State) (e : Event) : State :=
  match e with
  | .reset => s.resetSignal
  | .init | .binit | .extint _ | .nmi | .smi | .db | .mc => s.initSignal

/-- P takes a pending event before its next instruction: a signal replaces its state, any other
event is delivered. -/
def State.takeEvent (s : State) (e : Event) : State :=
  if Event.isSignal e then s.takeSignal e else s.deliver e

/-! ### Program text and fetch -/

/-- The byte at `a` if `a` is an address of the program text (20_memory.md R56; log 11). -/
def State.textByte (s : State) (a : Nat) : Option Byte :=
  if s.text.contains a then s.mem.read a else none

/-- Up to `n` consecutive bytes of the program text from `a`, to the end of the admitted text. -/
def State.textBytes (s : State) : Nat → Nat → List Byte
  | _, 0 => []
  | a, n + 1 =>
    match s.textByte a with
    | none => []
    | some b => b :: s.textBytes (a + 1) n

/-- The refusal that reports the decoder's verdict. -/
def DecodeError.toRefusal : DecodeError → Refusal
  | .notMwait => .notMwait
  | .startsWithPrefix => .prefixedForm
  | .truncated => .endOfText

/-- The fetch at `pc`: the instruction there, or the refusal. An instruction whose bytes would
straddle the top of the `IPW(MODE)`-bit space is refused (10_state.md R14). -/
def State.fetch (s : State) : Except Refusal Instr :=
  if 2 ^ s.cfg.ipw s.cpu.mode < s.cpu.pc + maxLength then .error .straddlesTop
  else
    match decode (s.textBytes s.cpu.pc maxLength) with
    | .ok (i, _) => .ok i
    | .error e => .error (DecodeError.toRefusal e)

end Sys2Proof.Machine
end

