-- ==== Sys2Proof/Machine/Mwait.lean ====
section
/-! DEFINITION. The meaning of MWAIT: 40_mwait.md R80. -/

namespace Sys2Proof.Machine

/-- The privilege level is tested in protected, compatibility and 64-bit mode only
(40_mwait.md R83; 90_conflicts.md C7). -/
def testsCpl : Mode → Bool
  | .prot | .compat | .long64 => true
  | .real | .v86 => false

/-- The checks of 40_mwait.md R80, lines 1 to 6, in the order of R86 (log 25): the exception MWAIT
raises, or none. -/
def mwaitCheck (cpu : Cpu) (c : Cfg) : Option Exn :=
  if cpu.mode = .v86 then some .ud                        -- R81
  else if !c.cpuid01Ecx3 then some .ud                    -- R82
  else if testsCpl cpu.mode && cpu.cpl != 0 then some .ud -- R83
  else if reservedSet cpu then some .gp                   -- R84
  else if ext0 cpu && !c.cpuid05Ecx1 then some .gp        -- R85
  else none

/-- The operation of 40_mwait.md R80, line 7. -/
def mwaitOperate (s : State) : State :=
  if s.mon.isArmed then s.enterWait else s.completeMwait

/-- MWAIT. It has no meaning in a guest (60_exceptions.md R133) or in the SMI handler (R129); its
precondition is `not WAITING` (40_mwait.md R80). -/
def execMwait (s : State) : Result :=
  if s.wait.isSome then .fault .executeWhileWaiting
  else if s.cfg.guest then .refused .inGuest
  else if s.inSmm then .refused .inSystemManagementMode
  else
    match mwaitCheck s.cpu s.cfg with
    | some x => .next (s.raiseExn x)
    | none => .next (mwaitOperate s)

end Sys2Proof.Machine
end

