-- ==== Sys2Proof/Machine/Turn.lean ====
section
/-! DEFINITION. One turn of the system: P's own steps and the environment's (10_state.md R11). -/

namespace Sys2Proof.Machine

/-- P executes the instruction at `pc`. -/
def State.execNext (s : State) : Result :=
  match s.fetch with
  | .ok i => exec i s
  | .error r => .refused r

/-- P's turn while it waits: `WAIT-EXIT`, which is obliged once `Duty` has held (40_mwait.md R102)
and a liberty otherwise (R95), taken when `pick` is odd; else the wait goes on. -/
def State.waitTurn (s : State) (pick : Nat) : State :=
  if s.owed || s.duty || pick % 2 == 1 then s.waitExit else s

/-- P's choice while it does not wait, between taking one of the pending events it may take and
executing the instruction at `pc`; `pick` selects, and every alternative is a run
(60_exceptions.md R123, R128; log 19). -/
def State.chooseTurn (s : State) (pick : Nat) : Result :=
  match s.takeable[pick % (s.takeable.length + 1)]? with
  | some e => .next (s.takeEvent e)
  | none => s.execNext

/-- P's turn. While `WAITING` nothing but `WAIT-EXIT` (10_state.md R11). Else `TrapEntry` acts on
what was handed to it (60_exceptions.md R124, R128; log 15), else P chooses. -/
def State.selfTurn (s : State) (pick : Nat) : Result :=
  if s.wait.isSome then .next (s.waitTurn pick)
  else
    match s.trap with
    | some r => .next (s.trapEntry r)
    | none => s.chooseTurn pick

/-- P may take a step of its own that is no exit, no entry and no execution of MWAIT: it does not
wait, and nothing is with `TrapEntry` (10_state.md R11; log 20). -/
def State.free (s : State) : Bool := s.wait.isNone && s.trap.isNone

/-- A store event. A store by P cannot happen while it waits (20_memory.md R45): the turn passes. A
store to the program text is refused (R56). -/
def State.storeTurn (s : State) (st : StoreEvent) (seen : Bool) : Result :=
  if st.agent == .self && s.wait.isSome then .next s
  else if st.addrs.any s.text.contains then .refused .storeToProgramText
  else .next (s.storeEffect st seen)

/-- One turn. A turn that names a step P cannot take passes without effect (log 20). -/
def State.runTurn (s : State) : Turn → Result
  | .self pick => s.selfTurn pick
  | .arm a => .next (if s.free then s.arm a else s)
  | .armFail => .next (if s.free then s.armFail else s)
  | .handlerReturn => .next (if s.free then s.returnFromHandler else s)
  | .store st seen => s.storeTurn st seen
  | .access _ _ _ _ => .next s
  | .raise e => .next (s.raiseEvent e)
  | .withdraw e => .next (s.dropEvent e)
  | .setUnmasked l => .next (s.setUnmasked l)
  | .spurious => .next (if s.wait.isSome then s.waitExit else s)

/-- Who moves next: the script says so; when it is empty P does, with a free choice (log 2). -/
def State.nextTurn (s : State) : Turn :=
  match s.script with
  | [] => .self (Config.freePick s.draws)
  | t :: _ => t

/-- What a step does before the turn: the turn is taken off the script, the counter of the free
values advances, and a duty that holds in this state of the wait is remembered
(40_mwait.md R102; log 3). -/
def State.tick (s : State) : State :=
  ((s.setScript s.script.tail).setDraws (s.draws + 1)).setOwed
    (s.wait.isSome && (s.owed || s.duty))

/-- The set `l` with the addresses `as` added. -/
def addAddrs (l : List Nat) (as : List Nat) : List Nat :=
  as.foldl (fun l a => if l.contains a then l else l ++ [a]) l

/-- The state with `bs` stored at `pc` as program text and P about to execute there: it waits for
nothing, nothing is with `TrapEntry`, and the next turn is P's with the choice to execute
(60_exceptions.md R128). -/
def State.placeAtPc (s : State) (bs : List Byte) : State :=
  let s1 := (s.setMem (s.mem.writeBytes s.cpu.pc bs)).setText
    (addAddrs s.text ((List.range bs.length).map (s.cpu.pc + ·)))
  (((s1.setWait none).setOwed false).setTrap none).setScript (.self s.takeable.length :: s.script)

end Sys2Proof.Machine
end

