-- ==== Sys2Proof/Machine/Step.lean ====
section
/-! DEFINITION. One step of the machine, and placing an instruction where it fetches next. -/

namespace Sys2Proof.Machine

/-- One step: the next turn (10_state.md R11). -/
def step (s : State) : Host.Outcome State Fault Refusal := s.tick.runTurn s.nextTurn

/-- `s` with the instruction whose bits are `w` (numbered as spec/opcode_table.json numbers them)
stored at `pc`, so that the next step fetches and runs exactly it (log 28). -/
def State.withFetchWord (s : State) (nbits w : Nat) : State := s.placeAtPc (tableBytes nbits w)

end Sys2Proof.Machine
end

