-- ==== Sys2Proof/Safety.lean ====
section
/-! DEFINITION. What counts as a legal state and a safe run, in the terms the statements use. -/

namespace Sys2Proof.Machine

/-- P may execute an instruction the model gives a meaning to: it does not wait (40_mwait.md R80),
is no guest (60_exceptions.md R133) and is not in the SMI handler (R129). -/
abbrev State.mayExecute (s : State) : Prop :=
  s.wait = none ∧ s.cfg.guest = false ∧ s.inSmm = false

/-- Bits `hi` down to `lo` of a register are not all 0 (00_scope.md R6, R9). -/
def someBitSet {w : Nat} (v : BitVec w) (lo hi : Nat) : Prop :=
  ∃ n, lo ≤ n ∧ n ≤ hi ∧ v.getLsbD n = true

/-- The reserved bits of the extensions register MWAIT tests: `RCX[63:1]` in 64-bit mode,
`ECX[31:1]` otherwise (40_mwait.md R84). -/
def reservedBitsSet (cpu : Cpu) : Prop :=
  match cpu.mode with
  | .long64 => someBitSet cpu.rcx 1 63
  | .real | .prot | .v86 | .compat => someBitSet cpu.rcx 1 31

/-- No exception condition of 40_mwait.md R81 to R85 holds. -/
structure MwaitAllowed (cpu : Cpu) (c : Cfg) : Prop where
  notV86     : cpu.mode ≠ .v86
  available  : c.cpuid01Ecx3 = true
  privileged : cpu.mode = .real ∨ cpu.cpl = 0
  noReserved : ¬ reservedBitsSet cpu
  extension  : cpu.rcx.getLsbD 0 = true → c.cpuid05Ecx1 = true

/-- Every byte of memory reads in `t` as it reads in `s`. -/
def sameBytes (s t : State) : Prop := ∀ a, t.mem.read a = s.mem.read a

/-- A store event writes a byte of `r`: 20_memory.md R42. -/
def overlapsRange (st : StoreEvent) (r : Range) : Prop :=
  ∃ k, k < st.more.length + 1 ∧ (st.addr + k = r.first ∨ st.addr + k ∈ r.more)

/-- A store event writes a byte of the program text: 20_memory.md R56. -/
def overlapsText (st : StoreEvent) (s : State) : Prop :=
  ∃ k, k < st.more.length + 1 ∧ st.addr + k ∈ s.text

/-- No turn of the script stores to the program text, so the run is one 20_memory.md R56 admits. -/
def scriptKeepsText (s : State) : Prop :=
  ∀ t ∈ s.script, ∀ st seen, t = .store st seen → ¬ overlapsText st s

/-- The next turn is P's and its choice is to execute the instruction at `pc`: P does not wait,
nothing is with `TrapEntry`, and the choice of 60_exceptions.md R128 falls on execution. -/
def State.turnExecutes (s : State) : Prop :=
  s.wait = none ∧ s.trap = none ∧
  ∃ pick, s.nextTurn = .self pick ∧ pick % (s.takeable.length + 1) = s.takeable.length

/-- What a step does around the turn of a P that does not wait: the turn leaves the script and the
counter of the free values advances. -/
def State.ticked (s : State) : State :=
  { s with script := s.script.tail, draws := s.draws + 1, owed := false }

/-- The state in which `x` was handed to `TrapEntry` with the address of the instruction, and
nothing else changed (60_exceptions.md R124). -/
def State.handedExn (s : State) (x : Exn) (code : Option Nat) : State :=
  { s with trap := some (.exn x code s.cpu.pc) }

/-- The error code of #GP: none stated in real-address mode, else 0 (60_exceptions.md R121). -/
def gpCode (m : Mode) : Option Nat := if m = .real then none else some 0

/-- `pc + 3` modulo `2^IPW(MODE)`: 10_state.md R14. -/
def State.pcAfter (s : State) : Nat := (s.cpu.pc + 3) % 2 ^ s.cfg.ipw s.cpu.mode

/-- `k` steps, stopping at the first fault or refusal. -/
def runSteps : Nat → State → Result
  | 0, s => .next s
  | k + 1, s =>
    match step s with
    | .next t => runSteps k t
    | .fault r => .fault r
    | .refused r => .refused r

/-- The state a pending RESET#, INIT# or BINIT# replaces P's by: the parameters `ResetState` and
`InitState` (60_exceptions.md R130). -/
def State.signalState (s : State) (e : Event) : SignalState :=
  if e = .reset then s.cfg.resetState else s.cfg.initState

/-- P took the pending signal `e` on its own turn, with nothing at `TrapEntry`. -/
def State.takesSignal (s : State) (e : Event) : Prop :=
  (∃ pick, s.nextTurn = .self pick) ∧ s.wait = none ∧ s.trap = none ∧ e ∈ s.pend ∧
    e ∈ [Event.reset, .init, .binit]

/-- The legal states of the machine. -/
structure State.Inv (s : State) : Prop where
  /-- Memory is in its canonical form. -/
  memCanonical : s.mem.wf = true
  /-- `pc` has `IPW(MODE)` bits: 10_state.md R10, R14. -/
  pcFits : s.cpu.pc < 2 ^ s.cfg.ipw s.cpu.mode
  /-- `PEND` is a set: 10_state.md R24. -/
  pendNodup : s.pend.Nodup
  /-- The armed range is a set of addresses: 10_state.md R22. -/
  rangeAscending : ∀ r, s.mon = .armed r → r.wellFormed = true
  /-- `ResetState` and `InitState` are states, and the ranges MONITOR can arm are sets of
  addresses. -/
  cfgLegal : s.cfg.wellFormed = true
  /-- An address handed over for the return has the width of the mode it was handed over in. -/
  trapFits : ∀ e a, s.trap = some (.event e a) → a < 2 ^ s.cfg.ipw s.cpu.mode
  /-- So has every address a handler will return to. -/
  framesFit : ∀ f ∈ s.frames, ∀ e a, f.record = .event e a → a < 2 ^ s.cfg.ipw f.mode
  /-- P waits only with every check passed: 60_exceptions.md R138 item 1. -/
  waitAllowed : s.wait.isSome → MwaitAllowed s.cpu s.cfg
  /-- `WCTX` is what EAX and ECX hold, since nothing changes them during the wait: 10_state.md R23,
  40_mwait.md R101. -/
  waitContext : ∀ w, s.wait = some w →
    w.hints = s.cpu.rax.setWidth 32 ∧ w.ext0 = s.cpu.rcx.getLsbD 0
  /-- A wait was entered with the monitor armed, and only a store can have changed that:
  40_mwait.md R92. -/
  waitMonitor : s.wait.isSome → s.mon ≠ .idle
  /-- P neither waits in a guest nor in the SMI handler: 60_exceptions.md R129, R133. -/
  waitPlace : s.wait.isSome → s.cfg.guest = false ∧ s.inSmm = false
  /-- Nothing is with `TrapEntry` during a wait: 10_state.md R11. -/
  waitNoTrap : s.wait.isSome → s.trap = none
  /-- An exit is owed only during a wait: 40_mwait.md R102. -/
  owedWaits : s.owed = true → s.wait.isSome

end Sys2Proof.Machine
end

