-- ==== Sys2Proof/Certificates/Slice0/Obligations.lean ====
section
/-! DEFINITION. The statements for the provers. Each formalises a rule of the spec, or says whose
choice it rests on. -/

open Sys2Proof Sys2Proof.Machine

/-! ### Encoding and fetch -/

/-- 30_encoding.md R62: bytes are MWAIT if and only if the first three are `0F 01 C9`; as a 24-bit
pattern with the first byte on top, `match = 0x0F01C9`, `mask = 0xFFFFFF`. The spec marks this as
its own decision D1. -/
def Obligations.DecodesExactlyTheBareBytes : Prop :=
  (∀ bs i rest, decode bs = .ok (i, rest) ↔ i = .mwait ∧ bs = 0x0F :: 0x01 :: 0xC9 :: rest) ∧
  (∀ w, decodeTableWord 24 w = some .mwait ↔ w &&& 0xFFFFFF = 0x0F01C9)

/-- 30_encoding.md R63, R60: every well-formed instruction decodes from its encoding, whatever
follows, and is three bytes long. -/
def Obligations.DecodeInvertsEncode : Prop :=
  ∀ i rest, Instr.wellFormed i = true →
    decode (encode i ++ rest) = .ok (i, rest) ∧ (encode i).length = 3

/-- 30_encoding.md R62 and 95_test_vectors.md E1 to E10, on written out bytes. -/
def Obligations.DecodesTheWrittenOutWords : Prop :=
  decode [0x0F, 0x01, 0xC9, 0x90] = .ok (.mwait, [0x90]) ∧
  decode [0b00001111, 0b00000001, 0b11001001] = .ok (.mwait, []) ∧
  decodeTableWord 24 0x0F01C9 = some .mwait ∧
  decode [0x0F, 0x01, 0xC8] = .error .notMwait ∧
  decode [0x0F, 0x01, 0xC1] = .error .notMwait ∧
  decode [0x0F, 0x01, 0x49] = .error .notMwait ∧
  decode [0x0F, 0x00, 0xC9] = .error .notMwait ∧
  decode [0x66, 0x0F, 0x01, 0xC9] = .error .startsWithPrefix ∧
  decode [0xF3, 0x0F, 0x01, 0xC9] = .error .startsWithPrefix ∧
  decode [0x48, 0x0F, 0x01, 0xC9] = .error .startsWithPrefix ∧
  decode [0x0F, 0x01] = .error .truncated

/-- 30_encoding.md R62, R65, 95_test_vectors.md E10: at a `pc` below the straddling zone P executes
MWAIT exactly when the three bytes of the program text there are `0F 01 C9`; anything else is
refused by name. The spec marks these as its own decisions D4 and D26. -/
def Obligations.FetchRunsMwaitOrRefuses : Prop :=
  ∀ s : State, s.cpu.pc + 3 ≤ 2 ^ s.cfg.ipw s.cpu.mode →
    (s.textByte s.cpu.pc = some 0x0F ∧ s.textByte (s.cpu.pc + 1) = some 0x01 ∧
        s.textByte (s.cpu.pc + 2) = some 0xC9 →
      s.execNext = exec .mwait s) ∧
    (¬ (s.textByte s.cpu.pc = some 0x0F ∧ s.textByte (s.cpu.pc + 1) = some 0x01 ∧
        s.textByte (s.cpu.pc + 2) = some 0xC9) →
      ∃ r, s.execNext = .refused r ∧ (r = .notMwait ∨ r = .prefixedForm ∨ r = .endOfText))

/-- 10_state.md R14: an MWAIT whose bytes would straddle the top of the `IPW`-bit space is refused;
one that ends exactly at the top is not refused for that. That whatever other bytes stand so near
the top are refused by the same name, without being read, is the model's choice (log 27). The spec
marks R14's refusal as its own decision D3. -/
def Obligations.StraddlingTheTopIsRefused : Prop :=
  ∀ s : State, s.turnExecutes →
    (step s = .refused .straddlesTop ↔ 2 ^ s.cfg.ipw s.cpu.mode < s.cpu.pc + 3)

/-- A step runs the decoded instruction: when P's turn executes and the program text at `pc` decodes
to `i`, the step is `exec i` on the state with the turn taken off the script. -/
def Obligations.StepRunsTheDecodedInstruction : Prop :=
  ∀ (s : State) i rest, s.turnExecutes → s.cpu.pc + 3 ≤ 2 ^ s.cfg.ipw s.cpu.mode →
    decode (s.textBytes s.cpu.pc 3) = .ok (i, rest) → step s = exec i s.ticked

/-! ### MWAIT: the exceptions -/

/-- 40_mwait.md R81: in virtual-8086 mode MWAIT always raises #UD, whatever the CPUID flag, the
privilege level and the registers hold. -/
def Obligations.MwaitInV86RaisesUd : Prop :=
  ∀ s : State, s.mayExecute → s.cpu.mode = .v86 →
    exec .mwait s = .next (s.handedExn .ud none)

/-- 40_mwait.md R82: in the other four modes MWAIT raises #UD if `CPUID_01H_ECX_3 = 0`. -/
def Obligations.MwaitWithoutTheFeatureRaisesUd : Prop :=
  ∀ s : State, s.mayExecute →
    s.cpu.mode ∈ [Mode.real, .prot, .compat, .long64] → s.cfg.cpuid01Ecx3 = false →
    exec .mwait s = .next (s.handedExn .ud none)

/-- 40_mwait.md R83: in protected, compatibility and 64-bit mode MWAIT raises #UD if `CPL != 0`; in
real-address mode there is no privilege test: the outcome is the same for every `CPL`, whether the
other checks pass or not. The spec marks the second as its own decision D29. -/
def Obligations.MwaitAtOtherPrivilegeRaisesUd : Prop :=
  (∀ s : State, s.mayExecute → s.cpu.mode ∈ [Mode.prot, .compat, .long64] → s.cpu.cpl ≠ 0 →
    exec .mwait s = .next (s.handedExn .ud none)) ∧
  (∀ (s : State) c, s.mayExecute → s.cpu.mode = .real →
    ∃ t, exec .mwait s = .next t ∧
      exec .mwait (s.setCpu { s.cpu with cpl := c }) =
        .next { t with cpu := { t.cpu with cpl := c } })

/-- 40_mwait.md R84: reserved bits of the extensions register raise #GP: `ECX[31:1]`, in 64-bit mode
`RCX[63:1]`; error code 0, none in real-address mode; the register is not changed. With none of them
set this test raises nothing, so outside 64-bit mode bits 63:32 of RCX are not tested. -/
def Obligations.MwaitReservedExtensionBitsRaiseGp : Prop :=
  ∀ s : State, s.mayExecute → s.cpu.mode ≠ .v86 → s.cfg.cpuid01Ecx3 = true →
    (s.cpu.mode = .real ∨ s.cpu.cpl = 0) →
    (reservedBitsSet s.cpu → exec .mwait s = .next (s.handedExn .gp (gpCode s.cpu.mode))) ∧
    (¬ reservedBitsSet s.cpu → (s.cpu.rcx.getLsbD 0 = true → s.cfg.cpuid05Ecx1 = true) →
      ∃ t, exec .mwait s = .next t ∧ t.trap = s.trap ∧ t.cpu.rcx = s.cpu.rcx)

/-- 40_mwait.md R85: `ECX[0] = 1` without `CPUID_05H_ECX_1` raises #GP with the same error-code
form; `CPUID_05H_ECX_0` plays no part. -/
def Obligations.MwaitUnsupportedExtensionRaisesGp : Prop :=
  ∀ s : State, s.mayExecute → s.cpu.mode ≠ .v86 → s.cfg.cpuid01Ecx3 = true →
    (s.cpu.mode = .real ∨ s.cpu.cpl = 0) →
    s.cpu.rcx.getLsbD 0 = true → s.cfg.cpuid05Ecx1 = false →
    exec .mwait s = .next (s.handedExn .gp (gpCode s.cpu.mode))

/-- 40_mwait.md R86, R87, 60_exceptions.md R122: the order of the checks. MWAIT raises nothing
exactly when no condition holds; otherwise it raises #UD when one of the #UD conditions holds,
whatever the extensions register holds, and #GP only when none does. It raises nothing else. The
spec marks this as its own decision D5. -/
def Obligations.MwaitReportsUdBeforeGp : Prop :=
  ∀ s : State, s.mayExecute →
    (MwaitAllowed s.cpu s.cfg → ∃ t, exec .mwait s = .next t ∧ t.trap = s.trap) ∧
    (¬ MwaitAllowed s.cpu s.cfg →
      ((s.cpu.mode = .v86 ∨ s.cfg.cpuid01Ecx3 = false ∨ (s.cpu.mode ≠ .real ∧ s.cpu.cpl ≠ 0)) →
        exec .mwait s = .next (s.handedExn .ud none)) ∧
      (¬ (s.cpu.mode = .v86 ∨ s.cfg.cpuid01Ecx3 = false ∨
          (s.cpu.mode ≠ .real ∧ s.cpu.cpl ≠ 0)) →
        exec .mwait s = .next (s.handedExn .gp (gpCode s.cpu.mode))))

/-- 60_exceptions.md R129, R133: MWAIT is refused in a guest and in the SMI handler; that P is in
system-management mode exactly while an SMI's handler is entered and has not returned is the
model's deduction (log 17); 40_mwait.md R80: `exec` has no meaning in a state with `WAITING` (log
24), and these three are the only states in which it answers no next state. The spec marks these as
its own decisions D23 and D31. -/
def Obligations.MwaitStopsExactlyOutsideItsPlace : Prop :=
  ∀ s : State,
    (s.wait.isSome → exec .mwait s = .fault .executeWhileWaiting) ∧
    (s.wait = none → s.cfg.guest = true → exec .mwait s = .refused .inGuest) ∧
    (s.wait = none → s.cfg.guest = false →
      (∃ f ∈ s.frames, ∃ a, f.record = .event .smi a) →
      exec .mwait s = .refused .inSystemManagementMode) ∧
    (s.wait = none → s.cfg.guest = false →
      (¬ ∃ f ∈ s.frames, ∃ a, f.record = .event .smi a) → ∃ t, exec .mwait s = .next t)

/-! ### MWAIT: the operation and its frame -/

/-- 40_mwait.md R91: with the monitor not armed MWAIT completes: `MON <- TRIGGERED`,
`pc <- pc + 3`, and it does not wait; the hints and the extension bit have no effect, though the
checks are still made. -/
def Obligations.MwaitNotArmedCompletes : Prop :=
  ∀ s : State, s.mayExecute → (∀ r, s.mon ≠ .armed r) →
    (MwaitAllowed s.cpu s.cfg →
      exec .mwait s =
        .next { s with mon := .triggered, cpu := { s.cpu with pc := s.pcAfter } }) ∧
    (¬ MwaitAllowed s.cpu s.cfg → ∃ x code, exec .mwait s = .next (s.handedExn x code))

/-- 40_mwait.md R92: with the monitor armed MWAIT enters the wait: `WCTX` holds EAX and `ECX[0]`,
`WAITING <- true`, `pc <- pc + 3`. The processor is not required to stay: a run in which the exit
follows at once exists for every such state. The spec marks this as its own decision D13. -/
def Obligations.MwaitArmedEntersTheWait : Prop :=
  ∀ (s : State) r, s.mayExecute → MwaitAllowed s.cpu s.cfg → s.mon = .armed r →
    (exec .mwait s =
      .next { s with
        wait := some { hints := s.cpu.rax.setWidth 32, ext0 := s.cpu.rcx.getLsbD 0 },
        cpu := { s.cpu with pc := s.pcAfter } }) ∧
    (∀ t rest, exec .mwait s = .next t → s.script = .spurious :: rest →
      ∃ u, step t = .next u ∧ u.wait = none ∧ u.cpu = t.cpu)

/-- 40_mwait.md R101, 10_state.md R15, R16, R25, 20_memory.md R40: the frame of MWAIT. When it
answers a next state, no general register, no flag, neither the mode nor the privilege level, and
no byte of memory has changed; `pc` is as it was or `pc + 3`; of the rest only the monitor, the
wait and the record handed to `TrapEntry` may have changed. The spec marks this as its own decision
D2. -/
def Obligations.MwaitFrame : Prop :=
  ∀ s t : State, exec .mwait s = .next t →
    t.cpu.rax = s.cpu.rax ∧ t.cpu.rcx = s.cpu.rcx ∧ t.cpu.edx = s.cpu.edx ∧
    t.cpu.intFlag = s.cpu.intFlag ∧ t.cpu.mode = s.cpu.mode ∧ t.cpu.cpl = s.cpu.cpl ∧
    (t.cpu.pc = s.cpu.pc ∨ t.cpu.pc = s.pcAfter) ∧
    sameBytes s t ∧ t.text = s.text ∧ t.pend = s.pend ∧ t.unmasked = s.unmasked ∧
    t.frames = s.frames ∧ t.owed = s.owed ∧ t.script = s.script ∧ t.draws = s.draws ∧
    t.cfg = s.cfg

/-- 10_state.md R12, 40_mwait.md R89, R90: RAX decides nothing but the hints recorded for the wait:
with any other value in it MWAIT has the same outcome, and `RAX[63:32]` reaches nothing at all. The
spec marks this as its own decision D14. -/
def Obligations.MwaitReadsOnlyHintsFromRax : Prop :=
  ∀ (s : State) (v : Word), s.mayExecute →
    ∃ t, exec .mwait s = .next t ∧
      exec .mwait (s.setCpu { s.cpu with rax := v }) =
        .next { t with
          cpu := { t.cpu with rax := v },
          wait := t.wait.map fun w => { w with hints := v.setWidth 32 } }

/-- 10_state.md R13, 40_mwait.md R84: outside 64-bit mode MWAIT ignores `RCX[63:32]`: two states
that agree on ECX have outcomes that differ in RCX only. The spec marks this as its own decision
D14. -/
def Obligations.MwaitIgnoresUpperRcxOutside64BitMode : Prop :=
  ∀ (s : State) (v : Word), s.mayExecute → s.cpu.mode ≠ .long64 →
    v.setWidth 32 = s.cpu.rcx.setWidth 32 →
    ∃ t, exec .mwait s = .next t ∧
      exec .mwait (s.setCpu { s.cpu with rcx := v }) = .next { t with cpu := { t.cpu with rcx := v } }

/-- 30_encoding.md R69: `_mm_mwait(extensions, hints)` puts the first argument in ECX and the second
in EAX; in every mode, 64-bit mode among them, the reserved-bit test is then a test of the 32-bit
extensions argument. That a 32-bit write clears the upper half is general knowledge (log 33). -/
def Obligations.IntrinsicPutsExtensionsInEcx : Prop :=
  ∀ (extensions hints : Dword) (cpu : Cpu),
    (intrinsicArgs extensions hints cpu).rcx.setWidth 32 = extensions ∧
    (intrinsicArgs extensions hints cpu).rax.setWidth 32 = hints ∧
    (reservedBitsSet (intrinsicArgs extensions hints cpu) ↔ 2 ≤ extensions.toNat)

/-! ### The wait -/

/-- 10_state.md R11: while it waits P takes no step but `WAIT-EXIT`: no step changes a register,
the flag, the mode or the handlers, no event is handed to `TrapEntry`, the monitor is not armed
anew, and what the wait recorded stays until it ends. The spec marks this as its own decision D1. -/
def Obligations.WaitingProcessorOnlyExits : Prop :=
  ∀ s t : State, s.wait.isSome → step s = .next t →
    t.cpu = s.cpu ∧ t.frames = s.frames ∧ t.trap = s.trap ∧ t.cfg = s.cfg ∧
    (t.wait = s.wait ∨ t.wait = none) ∧ (t.mon = s.mon ∨ t.mon = .triggered)

/-- 40_mwait.md R96: the exit sets `WAITING <- false` and `MON <- TRIGGERED`, whatever ended the
wait; `PEND`, the registers, the flag and memory do not change. -/
def Obligations.WaitExitTriggersTheMonitor : Prop :=
  ∀ s t : State, s.wait.isSome → step s = .next t → t.wait = none →
    t.mon = .triggered ∧ t.pend = s.pend ∧ t.cpu = s.cpu ∧ sameBytes s t

/-- 40_mwait.md R93: the events that end the wait whatever the flag, the extension and the hints:
the monitor is no longer armed, or NMI, SMI, a debug exception, a machine check, BINIT#, INIT# or
RESET# is pending. That with one of them P's very next own turn is the exit, whatever its pick, is
the model's choice (log 3): the rules say that the exit happens, and R102 only after finitely many
steps. -/
def Obligations.UnconditionalEventsEndTheWait : Prop :=
  ∀ (s : State) pick rest, s.wait.isSome → s.script = .self pick :: rest →
    ((∀ r, s.mon ≠ .armed r) ∨
      ∃ e ∈ s.pend, e ∈ [Event.nmi, .smi, .db, .mc, .binit, .init, .reset]) →
    ∃ t, step s = .next t ∧ t.wait = none ∧ t.mon = .triggered

/-- 40_mwait.md R94: a pending external interrupt ends the wait if it would be delivered or if
`WCTX.ext0 = 1`; `Duty` is the unconditional events or this, and nothing else. The spec marks this
as its own decision D12. -/
def Obligations.DutyIsExactlyTheListedEvents : Prop :=
  ∀ (s : State) w, s.wait = some w →
    (s.duty = true ↔
      (∀ r, s.mon ≠ .armed r) ∨
      (∃ e ∈ s.pend, e ∈ [Event.nmi, .smi, .db, .mc, .binit, .init, .reset]) ∨
      ∃ i, Event.extint i ∈ s.pend ∧
        (w.ext0 = true ∨ (s.cpu.intFlag = true ∧ Event.extint i ∈ s.unmasked)))

/-- 40_mwait.md R95: `WAIT-EXIT` is enabled in every state with `WAITING`, and without a duty it is
not obliged: the implementation's turn ends every wait, and on P's own turn both continuations
exist. The spec marks this as its own decision D11. -/
def Obligations.ExitIsALibertyInEveryWait : Prop :=
  ∀ (s : State) rest, s.wait.isSome →
    (s.script = .spurious :: rest → ∃ t, step s = .next t ∧ t.wait = none) ∧
    (s.script = .self 1 :: rest → ∃ t, step s = .next t ∧ t.wait = none) ∧
    (s.script = .self 0 :: rest → s.owed = false → s.duty = false →
      ∃ t, step s = .next t ∧ t.wait = s.wait)

/-- 40_mwait.md R95 (b): the false variant, that a wait ends only when a duty held. A liberty exit
refutes it. The spec marks this as its own decision D11. -/
def Obligations.WaitEndsOnlyOnDuty : Prop :=
  ∀ s t : State, s.wait.isSome → step s = .next t → t.wait = none →
    s.owed = true ∨ s.duty = true

/-- 40_mwait.md R102: the fairness of the duties. Once `Duty` has held during the wait, the exit
happens after finitely many steps, whatever the environment's turns are, withdrawing the event
included: at most one step for each turn of the script and one more. That bound is the model's
choice (log 3): R102 gives none. The spec marks this as its own decision D11. -/
def Obligations.OwedExitHappens : Prop :=
  ∀ s : State, s.wait.isSome → (s.owed = true ∨ s.duty = true) → scriptKeepsText s →
    ∃ k u, k ≤ s.script.length + 1 ∧ runSteps k s = .next u ∧ u.wait = none ∧
      u.mon = .triggered

/-- 40_mwait.md R102, 60_exceptions.md R134: the wait has no time-out. Without a duty it may go on
for any number of P's turns. The spec marks this as its own decision D11. -/
def Obligations.WaitWithoutDutyMayLast : Prop :=
  ∀ (n : Nat) (s : State) rest, s.wait.isSome → s.owed = false → s.duty = false →
    s.script = List.replicate n (.self 0) ++ rest →
    ∃ u, runSteps n s = .next u ∧ u.wait = s.wait ∧ u.mon = s.mon ∧ u.cpu = s.cpu

/-- 70_reset_and_hazards.md R169: with `IF = 0` and `ECX[0] = 0` no external interrupt is a duty:
raising one changes nothing about whether the wait is obliged to end. -/
def Obligations.MaskedInterruptIsNoDuty : Prop :=
  ∀ (s : State) w i, s.wait = some w → w.ext0 = false → s.cpu.intFlag = false →
    (s.raiseEvent (.extint i)).duty = s.duty

/-- 40_mwait.md R97, R100: MWAIT as one instruction. From a state in which it enters the wait, when
after any number of steps the wait ends, every register, the flag, the mode, the handlers and what
is with `TrapEntry` are as before MWAIT but for `pc`, which is the address of the instruction
following it, and the monitor is triggered. The spec marks this as its own decision D13. -/
def Obligations.WaitEndsAtTheFollowingInstruction : Prop :=
  ∀ (k : Nat) (s t u v : State), exec .mwait s = .next t → t.wait.isSome →
    (∀ j ≤ k, ∀ x, runSteps j t = .next x → x.wait.isSome) →
    runSteps k t = .next u → step u = .next v → v.wait = none →
    v.cpu = { s.cpu with pc := s.pcAfter } ∧ v.mon = .triggered ∧ v.frames = s.frames ∧
    v.trap = s.trap ∧ v.cfg = s.cfg

/-- 40_mwait.md R103: without a fresh MONITOR no MWAIT waits. From a state that does not wait and
whose monitor is not armed, as after every completed MWAIT, no run without an `Arm` turn ever waits
or is armed, however many instructions it executes. -/
def Obligations.NoWaitWithoutFreshMonitor : Prop :=
  ∀ (k : Nat) (s u : State), s.wait = none → (∀ r, s.mon ≠ .armed r) →
    (∀ a, Turn.arm a ∉ s.script) → runSteps k s = .next u →
    u.wait = none ∧ ∀ r, u.mon ≠ .armed r

/-- 60_exceptions.md R138 item 1, 40_mwait.md R92: the wait is entered only by MWAIT with the
monitor armed and all checks passed, and it records the operands. -/
def Obligations.OnlyArmedMwaitEntersTheWait : Prop :=
  ∀ (s t : State) w, s.wait = none → step s = .next t → t.wait = some w →
    (∃ r, s.mon = .armed r) ∧ MwaitAllowed s.cpu s.cfg ∧ s.cfg.guest = false ∧
    s.textByte s.cpu.pc = some 0x0F ∧ s.textByte (s.cpu.pc + 1) = some 0x01 ∧
    s.textByte (s.cpu.pc + 2) = some 0xC9 ∧
    w.hints = s.cpu.rax.setWidth 32 ∧ w.ext0 = s.cpu.rcx.getLsbD 0

/-! ### The monitor hardware and stores -/

/-- 10_state.md R22: `Arm(r)` with `r = MonitorRange(a)` sets `MON <- ARMED`, `RANGE <- r`,
replacing any range; `ArmFail` sets `MON <- IDLE`; nothing else of P changes, and neither step is
taken while P waits. `MonitorRange` is a function of the address and the configuration. The spec
marks this as its own decision D17. -/
def Obligations.ArmAndArmFail : Prop :=
  ∀ (s : State) a, s.trap = none →
    (s.wait = none → s.runTurn (.arm a) = .next { s with mon := .armed (s.monitorRange a) }) ∧
    (s.wait = none → s.runTurn .armFail = .next { s with mon := .idle }) ∧
    (s.wait.isSome → s.runTurn (.arm a) = .next s ∧ s.runTurn .armFail = .next s)

/-- 20_memory.md R43: a store by another processor agent that overlaps the armed range sets
`MON <- TRIGGERED`, in every optimized state and whether P waits or not. -/
def Obligations.OtherProcessorStoreAlwaysTriggers : Prop :=
  ∀ (s : State) st seen r, st.agent = .proc → s.mon = .armed r → overlapsRange st r →
    ¬ overlapsText st s →
    ∃ t, s.runTurn (.store st seen) = .next t ∧ t.mon = .triggered ∧ t.wait = s.wait

/-- 20_memory.md R44: a store by a non-processor agent that overlaps the armed range triggers when
P does not wait; while P waits it triggers if the hints' reserved bits are 0, the target C-state is
C1 or C0, and the extensions are reported or the hints are 0; else it may or may not. The spec
marks this as its own decision D10. -/
def Obligations.NonProcessorStoreTriggersByTheHints : Prop :=
  ∀ (s : State) st seen r, st.agent = .nonproc → s.mon = .armed r → overlapsRange st r →
    ¬ overlapsText st s →
    ∃ t, s.runTurn (.store st seen) = .next t ∧
      (s.wait = none → t.mon = .triggered) ∧
      ∀ w, s.wait = some w →
        let h := w.hints.toNat
        let wakes := h < 256 ∧ (h / 16 = 0 ∨ h / 16 = 15) ∧ (s.cfg.cpuid05Ecx0 = true ∨ h = 0)
        (wakes → t.mon = .triggered) ∧
        (¬ wakes → seen = true → t.mon = .triggered) ∧
        (¬ wakes → seen = false → t.mon = s.mon)

/-- 20_memory.md R45: a store by P itself happens only while P does not wait, and may trigger its
own armed range or not. The spec marks this as its own decision D9. -/
def Obligations.OwnStoreMayTriggerOrNot : Prop :=
  ∀ (s : State) st r, st.agent = .self → s.mon = .armed r → overlapsRange st r →
    ¬ overlapsText st s →
    (s.wait.isSome → ∀ seen, s.runTurn (.store st seen) = .next s) ∧
    (s.wait = none →
      (∃ t, s.runTurn (.store st true) = .next t ∧ t.mon = .triggered) ∧
      (∃ t, s.runTurn (.store st false) = .next t ∧ t.mon = .armed r))

/-- 20_memory.md R42: what a store event leaves alone. It changes no field of P but `MON`, and
`MON` only to `TRIGGERED`, and only when the monitor is armed and the stored bytes overlap the
range; it writes the stored bytes and no other byte of memory. That memory has them in the same
step is the model's choice of `MM` (log 12). The spec marks this as its own decision D27. -/
def Obligations.StoreFrame : Prop :=
  ∀ (s t : State) st seen, s.runTurn (.store st seen) = .next t →
    t = { s with mon := t.mon, mem := t.mem } ∧
    (t.mon = s.mon ∨ (t.mon = .triggered ∧ ∃ r, s.mon = .armed r ∧ overlapsRange st r)) ∧
    (∀ a, (∀ k, k < st.more.length + 1 → a ≠ st.addr + k) → t.mem.read a = s.mem.read a) ∧
    ((st.agent ≠ .self ∨ s.wait = none) →
      ∀ k, k < st.more.length + 1 → t.mem.read (st.addr + k) = (st.byte0 :: st.more)[k]?)

/-- 20_memory.md R46: a store of another agent that overlaps the range after MONITOR armed it and
before MWAIT makes the later MWAIT complete without a wait, whatever its hints are. The spec marks
this as its own decision D8. -/
def Obligations.StoreBeforeMwaitIsNotLost : Prop :=
  ∀ (s : State) a st seen, s.mayExecute → s.trap = none → MwaitAllowed s.cpu s.cfg →
    st.agent ≠ .self → overlapsRange st (s.monitorRange a) → ¬ overlapsText st s →
    ∃ t u v, s.runTurn (.arm a) = .next t ∧ t.runTurn (.store st seen) = .next u ∧
      exec .mwait u = .next v ∧ v.wait = none ∧ v.mon = .triggered ∧ v.cpu.pc = s.pcAfter

/-- 20_memory.md R47: a load, a fetch, a prefetch or a cache operation has no effect on `MON`. That
it has none on anything else is the model's choice (log 30), and that the step remembers a duty of
the wait too (log 3). -/
def Obligations.OtherAccessesHaveNoEffect : Prop :=
  ∀ (s t : State) kind agent a n rest, s.script = .access kind agent a n :: rest →
    step s = .next t →
    t = { s with script := rest, draws := s.draws + 1, owed := s.wait.isSome && (s.owed || s.duty) }

/-- 20_memory.md R54, 10_state.md R21: the only things that end the armed state are a store that
overlaps the range, the end of a wait, a failed MONITOR, and RESET#, INIT# or BINIT#, taken on P's
own turn. A successful MONITOR replaces the range. The spec marks this as its own decision D15. -/
def Obligations.OnlyTheListedStepsDisarm : Prop :=
  ∀ (s t : State) r, s.mon = .armed r → step s = .next t → t.mon ≠ .armed r →
    (∃ st seen, s.nextTurn = .store st seen ∧ overlapsRange st r ∧ t.mon = .triggered) ∨
    (s.wait.isSome ∧ t.wait = none ∧ t.mon = .triggered) ∨
    (s.nextTurn = .armFail ∧ t.mon = .idle) ∨
    (∃ a, s.nextTurn = .arm a ∧ t.mon = .armed (s.monitorRange a)) ∨
    ((∃ e, s.takesSignal e) ∧ ∀ r', t.mon ≠ .armed r')

/-- 10_state.md R21: only a successful MONITOR arms the monitor hardware. The spec marks this as
its own decision D17. -/
def Obligations.OnlyArmArms : Prop :=
  ∀ (s t : State) r, step s = .next t → t.mon = .armed r →
    s.mon = .armed r ∨ ∃ a, s.nextTurn = .arm a ∧ r = s.monitorRange a

/-- 40_mwait.md R89, 90_conflicts.md C9, 20_memory.md R44: with the reserved bits 0 and the
extensions reported, every store must end the wait exactly when the target C-state is not
numerically higher than C1. The spec marks this as its own decision D10. -/
def Obligations.AllStoresWakeUpToC1 : Prop :=
  ∀ (c : Cfg) (h : Dword), c.cpuid05Ecx0 = true → h.toNat < 256 →
    (allStoresWake c h = true ↔ targetCState h ≤ 1) ∧
    (targetCState h = 0 ↔ h.toNat / 16 = 15) ∧
    (targetCState h ≠ 0 → targetCState h = h.toNat / 16 + 1) ∧ subCState h = h.toNat % 16

/-! ### Pending events, exceptions, handlers -/

/-- 10_state.md R24: `Raise(e)` adds `e` to the set `PEND`, the environment may remove it again,
and neither changes anything else. The spec marks this as its own decision D12. -/
def Obligations.RaiseAndWithdraw : Prop :=
  ∀ (s : State) e, ∃ t u,
    s.runTurn (.raise e) = .next t ∧ t = { s with pend := t.pend } ∧
    (∀ e', e' ∈ t.pend ↔ e' ∈ s.pend ∨ e' = e) ∧
    s.runTurn (.withdraw e) = .next u ∧ u = { s with pend := u.pend } ∧
    (∀ e', e' ∈ u.pend ↔ e' ∈ s.pend ∧ e' ≠ e)

/-- 60_exceptions.md R128, R123: a pending event that is not masked may be delivered before the
next instruction, whatever else is pending, a signal among it: it leaves `PEND` and is handed over
with `return_pc = pc`. For every such event the choice that delivers it exists, and so does, in
every state, the choice to execute. The spec marks this as its own decision D6. -/
def Obligations.UnmaskedEventMayBeDelivered : Prop :=
  ∀ s : State, s.wait = none → s.trap = none →
    (∀ e ∈ s.pend, Event.isSignal e = false → e ∈ s.unmasked →
      (s.cpu.intFlag = true ∨ ∀ i, e ≠ .extint i) →
      ∃ pick, s.runTurn (.self pick) =
        .next { s with pend := s.pend.filter (· != e), trap := some (.event e s.cpu.pc) }) ∧
    (∃ pick, s.runTurn (.self pick) = s.execNext)

/-- 60_exceptions.md R128, R127: an external interrupt that is masked, by `IF = 0` or by the
platform, is never delivered: no step hands it to `TrapEntry`, and it stays pending through every
step but its withdrawal and a signal. A signal leaves the `PEND` of the parameter, since
10_state.md R27 marks it unspecified (log 19); that `TrapEntry` and the return from a handler leave
`PEND` is the model's choice (logs 15 and 16). The spec marks the masking as its own decision D22. -/
def Obligations.MaskedInterruptStaysPending : Prop :=
  ∀ (s t : State) i, Event.extint i ∈ s.pend →
    (s.cpu.intFlag = false ∨ Event.extint i ∉ s.unmasked) →
    s.nextTurn ≠ .withdraw (.extint i) → step s = .next t →
    (∀ a, t.trap = some (.event (.extint i) a) → s.trap = t.trap) ∧
    (Event.extint i ∈ t.pend ∨ ∃ e, s.takesSignal e ∧ t.pend = (s.signalState e).pend)

/-- 60_exceptions.md R124, R128: what is with `TrapEntry` came from MWAIT's own exceptions or from
the delivery of an event that was pending and not masked, with `pc` as it is: nothing else is ever
handed over. The spec marks this as its own decision D6. -/
def Obligations.OnlyExceptionsAndDeliveriesAreHandedOver : Prop :=
  ∀ (s t : State) r, s.trap = none → step s = .next t → t.trap = some r →
    t.cpu = s.cpu ∧ s.wait = none ∧ (∃ pick, s.nextTurn = .self pick) ∧
    ((r = .exn .ud none s.cpu.pc ∧ ¬ MwaitAllowed s.cpu s.cfg) ∨
     (r = .exn .gp (gpCode s.cpu.mode) s.cpu.pc ∧ ¬ MwaitAllowed s.cpu s.cfg) ∨
     (∃ e ∈ s.pend, r = .event e s.cpu.pc ∧ Event.isSignal e = false ∧ e ∈ s.unmasked ∧
       (s.cpu.intFlag = true ∨ ∀ i, e ≠ .extint i)))

/-- 60_exceptions.md R124, R125: `TrapEntry` acts on P's turn. It may leave any registers (a free
value), but not the monitor hardware, the pending events, memory or the configuration: the monitor
is one for P, not one per nesting level (log 15: that it leaves these is the model's reading). The
spec marks this as its own decision D6. -/
def Obligations.TrapEntryLeavesTheMonitor : Prop :=
  ∀ (s : State) r pick, s.wait = none → s.trap = some r →
    ∃ t, s.runTurn (.self pick) = .next t ∧ t.trap = none ∧ t.mon = s.mon ∧ t.wait = none ∧
      t.pend = s.pend ∧ sameBytes s t ∧ t.text = s.text ∧ t.cfg = s.cfg ∧
      t.frames = { record := r, mode := s.cpu.mode } :: s.frames

/-- 60_exceptions.md R125, R129, 40_mwait.md R97: no restart at MWAIT. From a wait with one event
pending that is not masked, an SMI or any other: after the exit, the delivery, the entry and the
return of its handler, execution is at the address that followed MWAIT, P does not wait, and the
monitor is triggered. The mode of the interrupted code is the model's reading (log 16). The spec
marks these as its own decisions D6 and D13. -/
def Obligations.HandlerReturnsAfterMwait : Prop :=
  ∀ (s : State) e a b rest, s.wait.isSome → s.trap = none → s.pend = [e] →
    Event.isSignal e = false → e ∈ s.unmasked → (s.cpu.intFlag = true ∨ ∀ i, e ≠ .extint i) →
    s.script = .self a :: .self 0 :: .self b :: .handlerReturn :: rest →
    ∃ u, runSteps 4 s = .next u ∧ u.cpu.pc = s.cpu.pc ∧ u.cpu.mode = s.cpu.mode ∧
      u.wait = none ∧ u.mon = .triggered ∧ u.pend = [] ∧ u.frames = s.frames ∧ u.trap = none

/-- 60_exceptions.md R130, 70_reset_and_hazards.md R160: a pending RESET# replaces P's state by
`ResetState`, with `MON = IDLE` and `WAITING = false`, whatever else is pending: the choice that
takes it exists. That it is one of the choices before the next instruction, and that what the
platform masks (70_reset_and_hazards.md R161) comes from the same parameter, is the model's choice
(log 19). The spec marks these as its own decisions D7 and D15. -/
def Obligations.ResetSignalReplacesTheState : Prop :=
  ∀ s : State, s.wait = none → s.trap = none → s.cfg.wellFormed = true → .reset ∈ s.pend →
    ∃ pick, s.runTurn (.self pick) =
      .next { s with
        cpu := s.cfg.resetState.cpu, mon := .idle, wait := none, owed := false, trap := none,
        frames := [], pend := s.cfg.resetState.pend, unmasked := s.cfg.resetState.unmasked }

/-- 60_exceptions.md R130: a pending INIT# or BINIT# replaces P's state by `InitState`, in which
`WAITING = false` and `MON != ARMED`, whatever else is pending: the choice that takes it exists.
The masking and the place in the choice are as for RESET# (log 19). The spec marks this as its own
decision D15. -/
def Obligations.InitSignalsReplaceTheState : Prop :=
  ∀ (s : State) e, s.wait = none → s.trap = none → s.cfg.wellFormed = true →
    (e = .init ∨ e = .binit) → e ∈ s.pend →
    ∃ pick t, s.runTurn (.self pick) = .next t ∧ (∀ r, t.mon ≠ .armed r) ∧
      t = { s with
        cpu := s.cfg.initState.cpu, mon := t.mon, wait := none, owed := false, trap := none,
        frames := [], pend := s.cfg.initState.pend, unmasked := s.cfg.initState.unmasked }

/-! ### Whole-machine rules -/

/-- 10_state.md R18, R19, R26: the configuration is constant during a run, and `MonitorRange` with
it, so that one address arms one range. The spec marks these as its own decisions D21 and D24. -/
def Obligations.ConfigurationNeverChanges : Prop :=
  ∀ (k : Nat) (s t : State), runSteps k s = .next t →
    t.cfg = s.cfg ∧ ∀ a, t.monitorRange a = s.monitorRange a

/-- 20_memory.md R56: the program text is fixed for the run: no run changes which addresses it is
or a byte of it, and a store to it that would be carried out is refused. The spec marks this as its
own decision D26. -/
def Obligations.ProgramTextIsFixed : Prop :=
  (∀ (k : Nat) (s t : State), runSteps k s = .next t →
    t.text = s.text ∧ ∀ a ∈ s.text, t.mem.read a = s.mem.read a) ∧
  (∀ (s : State) st seen, overlapsText st s → (st.agent ≠ .self ∨ s.wait = none) →
    s.runTurn (.store st seen) = .refused .storeToProgramText)

/-- 20_memory.md R40, R57: only store events change memory: MWAIT, the wait, its exit, and every
other step leave every byte as it was. That `TrapEntry`, the return from a handler and the signals
do is the model's choice (logs 15, 16 and 19). The spec marks this as its own decision D2. -/
def Obligations.OnlyStoresChangeMemory : Prop :=
  ∀ s t : State, step s = .next t →
    (∀ st seen, s.nextTurn ≠ .store st seen) → sameBytes s t

/-- 10_state.md R10, R15, R16, R17, R20: RAX, RCX, EDX, IF, MODE and CPL are written by no rule of
the spec: a step changes one of them only through `TrapEntry`, the return from a handler, or
RESET#, INIT#, BINIT#, and only while P does not wait: `TrapEntry` and the signals act on P's own
turn. The spec marks these as its own decisions D2 and D23. -/
def Obligations.OnlyTrapsAndSignalsChangeRegisters : Prop :=
  ∀ s t : State, step s = .next t →
    ({ t.cpu with pc := s.cpu.pc } = s.cpu ∧ (t.cpu.pc = s.cpu.pc ∨ t.cpu.pc = s.pcAfter)) ∨
    (s.wait = none ∧
      (((∃ pick, s.nextTurn = .self pick) ∧ ∃ r, s.trap = some r) ∨
        (s.nextTurn = .handlerReturn ∧ s.trap = none ∧ s.frames ≠ []))) ∨
    ∃ e, s.takesSignal e

/-- The invariant of the machine is kept by every step from every state that has it: the memory
form, the width of `pc`, `PEND` and the armed range sets, the configuration legal, and that P waits
only with every check passed, with `WCTX` still what its registers hold, and never with an idle
monitor. -/
def Obligations.EveryStepKeepsTheInvariant : Prop :=
  ∀ s t : State, s.Inv → step s = .next t → t.Inv

/-- The state after reset has the invariant. -/
def Obligations.ResetHasTheInvariant : Prop := State.reset.Inv

/-- 10_state.md R27, 70_reset_and_hazards.md R160: after reset the monitor is idle and P does not
wait, and an MWAIT placed where the machine fetches first falls through. It passes its checks
because the model's reset state has the CPUID bits 1 and no guest (log 7) and the family's
registers (log 6); the placing is the model's loading (log 28). The spec marks the idle monitor as
its own decision D7. -/
def Obligations.FirstMwaitAfterResetFallsThrough : Prop :=
  State.reset.mon = .idle ∧ State.reset.wait = none ∧
  ∃ t, step (State.reset.withFetchWord 24 0x0F01C9) = .next t ∧ t.mon = .triggered ∧
    t.wait = none ∧ t.trap = none ∧ t.cpu = { State.reset.cpu with pc := 0xFFF3 }

/-- Placing an instruction makes the very next step fetch and run it (log 28), in every state of a
P that is no guest and not in the SMI handler, wherever three bytes fit below the top: with `0F 01
C9` placed and no exception due, an MWAIT follows, whatever events are pending. -/
def Obligations.PlacedInstructionRunsNext : Prop :=
  ∀ s : State, s.cfg.guest = false → s.inSmm = false →
    s.cpu.pc + 3 ≤ 2 ^ s.cfg.ipw s.cpu.mode → MwaitAllowed s.cpu s.cfg →
    ∃ t, step (s.withFetchWord 24 0x0F01C9) = .next t ∧ t.trap = none ∧ t.pend = s.pend ∧
      t.cpu = { s.cpu with pc := s.pcAfter } ∧
      (t.wait.isSome ↔ ∃ r, s.mon = .armed r)

/-- The laws of memory (model's own data form, log 10): a byte reads as last written, and a write
leaves every other byte alone and the canonical form as it was. -/
def Obligations.MemoryReadAfterWrite : Prop :=
  ∀ (m : Memory) a b v, (m.write a v).read b = (if b = a then some v else m.read b) ∧
    (m.wf = true → (m.write a v).wf = true)

/-- 60_exceptions.md R124, R125, R128, R130: the handlers entered change only when `TrapEntry` acts,
when the handler entered last returns, and when a signal is taken. The return changes the registers
and that list alone, and after an event's handler `pc` is its `return_pc`. What the return leaves,
and the mode, are the model's choice (log 16); what the signals leave is log 19. -/
def Obligations.HandlersChangeOnlyByEntryReturnAndSignals : Prop :=
  ∀ s t : State, step s = .next t →
    t.frames = s.frames ∨
    ((∃ pick, s.nextTurn = .self pick) ∧ s.wait = none ∧
      ∃ r, s.trap = some r ∧ t.frames = { record := r, mode := s.cpu.mode } :: s.frames) ∨
    (s.nextTurn = .handlerReturn ∧ s.wait = none ∧ s.trap = none ∧
      ∃ f, s.frames = f :: t.frames ∧ t = { s.ticked with cpu := t.cpu, frames := t.frames } ∧
        ∀ e a, f.record = .event e a → t.cpu.pc = a ∧ t.cpu.mode = f.mode) ∨
    ((∃ e, s.takesSignal e) ∧ t.frames = [])

/-- 60_exceptions.md R127, R128: which events the platform lets through changes only when the
platform changes it, and then nothing else does, and when a signal is taken, to what the parameter
holds (70_reset_and_hazards.md R161; logs 14 and 19). The spec marks the open predicate as its own
decision D22. -/
def Obligations.MaskingChangesOnlyByThePlatformAndSignals : Prop :=
  ∀ s t : State, step s = .next t →
    t.unmasked = s.unmasked ∨
    (s.nextTurn = .setUnmasked t.unmasked ∧ t = { s.tick with unmasked := t.unmasked }) ∨
    ∃ e, s.takesSignal e ∧ t.unmasked = (s.signalState e).unmasked
end

