-- ==== Sys2Proof/Laws/Decode.lean ====
section
/-! SUPPORT. What the decoder answers. -/

namespace Sys2Proof

/-- The decoder accepts exactly the bare three bytes: 30_encoding.md R62. -/
theorem decode_ok_iff (bs : List Byte) (i : Instr) (rest : List Byte) :
    decode bs = .ok (i, rest) ↔ i = .mwait ∧ bs = 0x0F :: 0x01 :: 0xC9 :: rest := by
  constructor
  · intro h
    cases i
    rcases bs with _ | ⟨b0, _ | ⟨b1, _ | ⟨b2, l⟩⟩⟩ <;> simp only [decode] at h <;>
      (try split_ifs at h) <;> simp_all
  · rintro ⟨rfl, rfl⟩; rfl

theorem decode_encode (i : Instr) (rest : List Byte) : decode (encode i ++ rest) = .ok (i, rest) := by
  cases i; rfl

end Sys2Proof
end

