-- ==== Sys2Proof/Laws/Memory.lean ====
section
/-! SUPPORT. The laws of memory: read after write, and that every operation keeps the canonical
form. -/

namespace Sys2Proof.Machine

@[simp] theorem Memory.read_nil (a : Nat) : Memory.read [] a = none := rfl

theorem Memory.read_cons (k : Nat) (b : Byte) (m : Memory) (a : Nat) :
    Memory.read ((k, b) :: m) a = if k = a then some b else Memory.read m a := rfl

@[simp] theorem Memory.read_write_same (m : Memory) (a : Nat) (v : Byte) :
    (Memory.write m a v).read a = some v := by
  induction m with
  | nil => simp [Memory.write, Memory.read]
  | cons c m ih =>
    obtain ⟨k, b⟩ := c
    simp only [Memory.write]
    split
    · simp [Memory.read]
    · split
      · simp [Memory.read]
      · have : k ≠ a := fun h => by simp_all
        simp [Memory.read, this, ih]

theorem Memory.read_write_other (m : Memory) {a a' : Nat} (v : Byte) (h : a' ≠ a) :
    (Memory.write m a v).read a' = m.read a' := by
  have h' : a ≠ a' := fun e => h e.symm
  induction m with
  | nil => simp [Memory.write, Memory.read, h']
  | cons c m ih =>
    obtain ⟨k, b⟩ := c
    simp only [Memory.write]
    split
    · simp [Memory.read, h']
    · split
      · next e => subst e; simp [Memory.read, h']
      · simp [Memory.read, ih]

theorem Memory.read_writeBytes_other (m : Memory) (a a' : Nat) (vs : List Byte)
    (h : ∀ k, k < vs.length → a' ≠ a + k) : (Memory.writeBytes m a vs).read a' = m.read a' := by
  induction vs generalizing m a with
  | nil => rfl
  | cons v vs ih =>
    simp only [Memory.writeBytes]
    rw [ih]
    · exact Memory.read_write_other m v (by simpa using h 0 (by simp))
    · intro k hk
      have := h (k + 1) (by simpa using hk)
      omega

theorem Memory.read_writeBytes_at (m : Memory) (a : Nat) (vs : List Byte) (k : Nat)
    (h : k < vs.length) : (Memory.writeBytes m a vs).read (a + k) = vs[k]? := by
  induction vs generalizing m a k with
  | nil => simp at h
  | cons v vs ih =>
    simp only [Memory.writeBytes]
    cases k with
    | zero =>
      rw [Memory.read_writeBytes_other _ _ _ _ (by intro k _; omega)]
      simp
    | succ k =>
      have e : a + (k + 1) = (a + 1) + k := by omega
      rw [e, ih _ _ _ (by simpa using h)]
      simp

theorem ascending_cons {a : Nat} {l : List Nat} :
    ascending (a :: l) = true ↔ (∀ b ∈ l.head?, a < b) ∧ ascending l = true := by
  cases l <;> simp [ascending]

theorem Memory.wf_nil : Memory.wf [] = true := rfl

theorem Memory.wf_cons {k : Nat} {b : Byte} {m : Memory} :
    Memory.wf ((k, b) :: m) = true ↔ (∀ c ∈ m.head?, k < c.1) ∧ m.wf = true := by
  simp only [Memory.wf, List.map_cons, ascending_cons]
  cases m <;> simp

/-- The head of a written memory is the address written or the old head. -/
theorem Memory.head_write (m : Memory) (a : Nat) (v : Byte) :
    ∀ c ∈ (Memory.write m a v).head?, c.1 = a ∨ ∃ d ∈ m.head?, c.1 = d.1 := by
  cases m with
  | nil => simp [Memory.write]
  | cons c m =>
    obtain ⟨k, b⟩ := c
    simp only [Memory.write]
    split
    · simp
    · split <;> simp_all

theorem Memory.write_wf (m : Memory) (a : Nat) (v : Byte) (h : m.wf = true) :
    (Memory.write m a v).wf = true := by
  induction m with
  | nil => rfl
  | cons c m ih =>
    obtain ⟨k, b⟩ := c
    have hk := Memory.wf_cons.mp h
    simp only [Memory.write]
    split
    · next hlt => exact Memory.wf_cons.mpr ⟨by simpa using hlt, h⟩
    · split
      · next e => subst e; exact Memory.wf_cons.mpr hk
      · next hlt hne =>
        refine Memory.wf_cons.mpr ⟨fun c hc => ?_, ih hk.2⟩
        rcases Memory.head_write m a v c hc with e | ⟨d, hd, e⟩
        · omega
        · have := hk.1 d hd; omega

theorem Memory.writeBytes_wf (m : Memory) (a : Nat) (vs : List Byte) (h : m.wf = true) :
    (Memory.writeBytes m a vs).wf = true := by
  induction vs generalizing m a with
  | nil => exact h
  | cons v vs ih => exact ih _ _ (Memory.write_wf m a v h)

end Sys2Proof.Machine
end

