-- ==== Sys2Proof/Laws/State.lean ====
section
/-! SUPPORT. One lemma per field per setter, each true by rfl: later proofs use these and unfold no
record update. -/

namespace Sys2Proof.Machine

variable (s : State)

@[simp] theorem State.setCpu_cpu (v : Cpu) : (s.setCpu v).cpu = v := rfl
@[simp] theorem State.setCpu_mon (v : Cpu) : (s.setCpu v).mon = s.mon := rfl
@[simp] theorem State.setCpu_wait (v : Cpu) : (s.setCpu v).wait = s.wait := rfl
@[simp] theorem State.setCpu_owed (v : Cpu) : (s.setCpu v).owed = s.owed := rfl
@[simp] theorem State.setCpu_pend (v : Cpu) : (s.setCpu v).pend = s.pend := rfl
@[simp] theorem State.setCpu_unmasked (v : Cpu) : (s.setCpu v).unmasked = s.unmasked := rfl
@[simp] theorem State.setCpu_trap (v : Cpu) : (s.setCpu v).trap = s.trap := rfl
@[simp] theorem State.setCpu_frames (v : Cpu) : (s.setCpu v).frames = s.frames := rfl
@[simp] theorem State.setCpu_mem (v : Cpu) : (s.setCpu v).mem = s.mem := rfl
@[simp] theorem State.setCpu_text (v : Cpu) : (s.setCpu v).text = s.text := rfl
@[simp] theorem State.setCpu_script (v : Cpu) : (s.setCpu v).script = s.script := rfl
@[simp] theorem State.setCpu_draws (v : Cpu) : (s.setCpu v).draws = s.draws := rfl
@[simp] theorem State.setCpu_cfg (v : Cpu) : (s.setCpu v).cfg = s.cfg := rfl

@[simp] theorem State.setMon_cpu (v : Monitor) : (s.setMon v).cpu = s.cpu := rfl
@[simp] theorem State.setMon_mon (v : Monitor) : (s.setMon v).mon = v := rfl
@[simp] theorem State.setMon_wait (v : Monitor) : (s.setMon v).wait = s.wait := rfl
@[simp] theorem State.setMon_owed (v : Monitor) : (s.setMon v).owed = s.owed := rfl
@[simp] theorem State.setMon_pend (v : Monitor) : (s.setMon v).pend = s.pend := rfl
@[simp] theorem State.setMon_unmasked (v : Monitor) : (s.setMon v).unmasked = s.unmasked := rfl
@[simp] theorem State.setMon_trap (v : Monitor) : (s.setMon v).trap = s.trap := rfl
@[simp] theorem State.setMon_frames (v : Monitor) : (s.setMon v).frames = s.frames := rfl
@[simp] theorem State.setMon_mem (v : Monitor) : (s.setMon v).mem = s.mem := rfl
@[simp] theorem State.setMon_text (v : Monitor) : (s.setMon v).text = s.text := rfl
@[simp] theorem State.setMon_script (v : Monitor) : (s.setMon v).script = s.script := rfl
@[simp] theorem State.setMon_draws (v : Monitor) : (s.setMon v).draws = s.draws := rfl
@[simp] theorem State.setMon_cfg (v : Monitor) : (s.setMon v).cfg = s.cfg := rfl

@[simp] theorem State.setWait_cpu (v : Option WaitCtx) : (s.setWait v).cpu = s.cpu := rfl
@[simp] theorem State.setWait_mon (v : Option WaitCtx) : (s.setWait v).mon = s.mon := rfl
@[simp] theorem State.setWait_wait (v : Option WaitCtx) : (s.setWait v).wait = v := rfl
@[simp] theorem State.setWait_owed (v : Option WaitCtx) : (s.setWait v).owed = s.owed := rfl
@[simp] theorem State.setWait_pend (v : Option WaitCtx) : (s.setWait v).pend = s.pend := rfl
@[simp] theorem State.setWait_unmasked (v : Option WaitCtx) : (s.setWait v).unmasked = s.unmasked := rfl
@[simp] theorem State.setWait_trap (v : Option WaitCtx) : (s.setWait v).trap = s.trap := rfl
@[simp] theorem State.setWait_frames (v : Option WaitCtx) : (s.setWait v).frames = s.frames := rfl
@[simp] theorem State.setWait_mem (v : Option WaitCtx) : (s.setWait v).mem = s.mem := rfl
@[simp] theorem State.setWait_text (v : Option WaitCtx) : (s.setWait v).text = s.text := rfl
@[simp] theorem State.setWait_script (v : Option WaitCtx) : (s.setWait v).script = s.script := rfl
@[simp] theorem State.setWait_draws (v : Option WaitCtx) : (s.setWait v).draws = s.draws := rfl
@[simp] theorem State.setWait_cfg (v : Option WaitCtx) : (s.setWait v).cfg = s.cfg := rfl

@[simp] theorem State.setOwed_cpu (v : Bool) : (s.setOwed v).cpu = s.cpu := rfl
@[simp] theorem State.setOwed_mon (v : Bool) : (s.setOwed v).mon = s.mon := rfl
@[simp] theorem State.setOwed_wait (v : Bool) : (s.setOwed v).wait = s.wait := rfl
@[simp] theorem State.setOwed_owed (v : Bool) : (s.setOwed v).owed = v := rfl
@[simp] theorem State.setOwed_pend (v : Bool) : (s.setOwed v).pend = s.pend := rfl
@[simp] theorem State.setOwed_unmasked (v : Bool) : (s.setOwed v).unmasked = s.unmasked := rfl
@[simp] theorem State.setOwed_trap (v : Bool) : (s.setOwed v).trap = s.trap := rfl
@[simp] theorem State.setOwed_frames (v : Bool) : (s.setOwed v).frames = s.frames := rfl
@[simp] theorem State.setOwed_mem (v : Bool) : (s.setOwed v).mem = s.mem := rfl
@[simp] theorem State.setOwed_text (v : Bool) : (s.setOwed v).text = s.text := rfl
@[simp] theorem State.setOwed_script (v : Bool) : (s.setOwed v).script = s.script := rfl
@[simp] theorem State.setOwed_draws (v : Bool) : (s.setOwed v).draws = s.draws := rfl
@[simp] theorem State.setOwed_cfg (v : Bool) : (s.setOwed v).cfg = s.cfg := rfl

@[simp] theorem State.setPend_cpu (v : List Event) : (s.setPend v).cpu = s.cpu := rfl
@[simp] theorem State.setPend_mon (v : List Event) : (s.setPend v).mon = s.mon := rfl
@[simp] theorem State.setPend_wait (v : List Event) : (s.setPend v).wait = s.wait := rfl
@[simp] theorem State.setPend_owed (v : List Event) : (s.setPend v).owed = s.owed := rfl
@[simp] theorem State.setPend_pend (v : List Event) : (s.setPend v).pend = v := rfl
@[simp] theorem State.setPend_unmasked (v : List Event) : (s.setPend v).unmasked = s.unmasked := rfl
@[simp] theorem State.setPend_trap (v : List Event) : (s.setPend v).trap = s.trap := rfl
@[simp] theorem State.setPend_frames (v : List Event) : (s.setPend v).frames = s.frames := rfl
@[simp] theorem State.setPend_mem (v : List Event) : (s.setPend v).mem = s.mem := rfl
@[simp] theorem State.setPend_text (v : List Event) : (s.setPend v).text = s.text := rfl
@[simp] theorem State.setPend_script (v : List Event) : (s.setPend v).script = s.script := rfl
@[simp] theorem State.setPend_draws (v : List Event) : (s.setPend v).draws = s.draws := rfl
@[simp] theorem State.setPend_cfg (v : List Event) : (s.setPend v).cfg = s.cfg := rfl

@[simp] theorem State.setUnmasked_cpu (v : List Event) : (s.setUnmasked v).cpu = s.cpu := rfl
@[simp] theorem State.setUnmasked_mon (v : List Event) : (s.setUnmasked v).mon = s.mon := rfl
@[simp] theorem State.setUnmasked_wait (v : List Event) : (s.setUnmasked v).wait = s.wait := rfl
@[simp] theorem State.setUnmasked_owed (v : List Event) : (s.setUnmasked v).owed = s.owed := rfl
@[simp] theorem State.setUnmasked_pend (v : List Event) : (s.setUnmasked v).pend = s.pend := rfl
@[simp] theorem State.setUnmasked_unmasked (v : List Event) : (s.setUnmasked v).unmasked = v := rfl
@[simp] theorem State.setUnmasked_trap (v : List Event) : (s.setUnmasked v).trap = s.trap := rfl
@[simp] theorem State.setUnmasked_frames (v : List Event) : (s.setUnmasked v).frames = s.frames := rfl
@[simp] theorem State.setUnmasked_mem (v : List Event) : (s.setUnmasked v).mem = s.mem := rfl
@[simp] theorem State.setUnmasked_text (v : List Event) : (s.setUnmasked v).text = s.text := rfl
@[simp] theorem State.setUnmasked_script (v : List Event) : (s.setUnmasked v).script = s.script := rfl
@[simp] theorem State.setUnmasked_draws (v : List Event) : (s.setUnmasked v).draws = s.draws := rfl
@[simp] theorem State.setUnmasked_cfg (v : List Event) : (s.setUnmasked v).cfg = s.cfg := rfl

@[simp] theorem State.setTrap_cpu (v : Option TrapRecord) : (s.setTrap v).cpu = s.cpu := rfl
@[simp] theorem State.setTrap_mon (v : Option TrapRecord) : (s.setTrap v).mon = s.mon := rfl
@[simp] theorem State.setTrap_wait (v : Option TrapRecord) : (s.setTrap v).wait = s.wait := rfl
@[simp] theorem State.setTrap_owed (v : Option TrapRecord) : (s.setTrap v).owed = s.owed := rfl
@[simp] theorem State.setTrap_pend (v : Option TrapRecord) : (s.setTrap v).pend = s.pend := rfl
@[simp] theorem State.setTrap_unmasked (v : Option TrapRecord) : (s.setTrap v).unmasked = s.unmasked := rfl
@[simp] theorem State.setTrap_trap (v : Option TrapRecord) : (s.setTrap v).trap = v := rfl
@[simp] theorem State.setTrap_frames (v : Option TrapRecord) : (s.setTrap v).frames = s.frames := rfl
@[simp] theorem State.setTrap_mem (v : Option TrapRecord) : (s.setTrap v).mem = s.mem := rfl
@[simp] theorem State.setTrap_text (v : Option TrapRecord) : (s.setTrap v).text = s.text := rfl
@[simp] theorem State.setTrap_script (v : Option TrapRecord) : (s.setTrap v).script = s.script := rfl
@[simp] theorem State.setTrap_draws (v : Option TrapRecord) : (s.setTrap v).draws = s.draws := rfl
@[simp] theorem State.setTrap_cfg (v : Option TrapRecord) : (s.setTrap v).cfg = s.cfg := rfl

@[simp] theorem State.setFrames_cpu (v : List Frame) : (s.setFrames v).cpu = s.cpu := rfl
@[simp] theorem State.setFrames_mon (v : List Frame) : (s.setFrames v).mon = s.mon := rfl
@[simp] theorem State.setFrames_wait (v : List Frame) : (s.setFrames v).wait = s.wait := rfl
@[simp] theorem State.setFrames_owed (v : List Frame) : (s.setFrames v).owed = s.owed := rfl
@[simp] theorem State.setFrames_pend (v : List Frame) : (s.setFrames v).pend = s.pend := rfl
@[simp] theorem State.setFrames_unmasked (v : List Frame) : (s.setFrames v).unmasked = s.unmasked := rfl
@[simp] theorem State.setFrames_trap (v : List Frame) : (s.setFrames v).trap = s.trap := rfl
@[simp] theorem State.setFrames_frames (v : List Frame) : (s.setFrames v).frames = v := rfl
@[simp] theorem State.setFrames_mem (v : List Frame) : (s.setFrames v).mem = s.mem := rfl
@[simp] theorem State.setFrames_text (v : List Frame) : (s.setFrames v).text = s.text := rfl
@[simp] theorem State.setFrames_script (v : List Frame) : (s.setFrames v).script = s.script := rfl
@[simp] theorem State.setFrames_draws (v : List Frame) : (s.setFrames v).draws = s.draws := rfl
@[simp] theorem State.setFrames_cfg (v : List Frame) : (s.setFrames v).cfg = s.cfg := rfl

@[simp] theorem State.setMem_cpu (v : Memory) : (s.setMem v).cpu = s.cpu := rfl
@[simp] theorem State.setMem_mon (v : Memory) : (s.setMem v).mon = s.mon := rfl
@[simp] theorem State.setMem_wait (v : Memory) : (s.setMem v).wait = s.wait := rfl
@[simp] theorem State.setMem_owed (v : Memory) : (s.setMem v).owed = s.owed := rfl
@[simp] theorem State.setMem_pend (v : Memory) : (s.setMem v).pend = s.pend := rfl
@[simp] theorem State.setMem_unmasked (v : Memory) : (s.setMem v).unmasked = s.unmasked := rfl
@[simp] theorem State.setMem_trap (v : Memory) : (s.setMem v).trap = s.trap := rfl
@[simp] theorem State.setMem_frames (v : Memory) : (s.setMem v).frames = s.frames := rfl
@[simp] theorem State.setMem_mem (v : Memory) : (s.setMem v).mem = v := rfl
@[simp] theorem State.setMem_text (v : Memory) : (s.setMem v).text = s.text := rfl
@[simp] theorem State.setMem_script (v : Memory) : (s.setMem v).script = s.script := rfl
@[simp] theorem State.setMem_draws (v : Memory) : (s.setMem v).draws = s.draws := rfl
@[simp] theorem State.setMem_cfg (v : Memory) : (s.setMem v).cfg = s.cfg := rfl

@[simp] theorem State.setText_cpu (v : List Nat) : (s.setText v).cpu = s.cpu := rfl
@[simp] theorem State.setText_mon (v : List Nat) : (s.setText v).mon = s.mon := rfl
@[simp] theorem State.setText_wait (v : List Nat) : (s.setText v).wait = s.wait := rfl
@[simp] theorem State.setText_owed (v : List Nat) : (s.setText v).owed = s.owed := rfl
@[simp] theorem State.setText_pend (v : List Nat) : (s.setText v).pend = s.pend := rfl
@[simp] theorem State.setText_unmasked (v : List Nat) : (s.setText v).unmasked = s.unmasked := rfl
@[simp] theorem State.setText_trap (v : List Nat) : (s.setText v).trap = s.trap := rfl
@[simp] theorem State.setText_frames (v : List Nat) : (s.setText v).frames = s.frames := rfl
@[simp] theorem State.setText_mem (v : List Nat) : (s.setText v).mem = s.mem := rfl
@[simp] theorem State.setText_text (v : List Nat) : (s.setText v).text = v := rfl
@[simp] theorem State.setText_script (v : List Nat) : (s.setText v).script = s.script := rfl
@[simp] theorem State.setText_draws (v : List Nat) : (s.setText v).draws = s.draws := rfl
@[simp] theorem State.setText_cfg (v : List Nat) : (s.setText v).cfg = s.cfg := rfl

@[simp] theorem State.setScript_cpu (v : List Turn) : (s.setScript v).cpu = s.cpu := rfl
@[simp] theorem State.setScript_mon (v : List Turn) : (s.setScript v).mon = s.mon := rfl
@[simp] theorem State.setScript_wait (v : List Turn) : (s.setScript v).wait = s.wait := rfl
@[simp] theorem State.setScript_owed (v : List Turn) : (s.setScript v).owed = s.owed := rfl
@[simp] theorem State.setScript_pend (v : List Turn) : (s.setScript v).pend = s.pend := rfl
@[simp] theorem State.setScript_unmasked (v : List Turn) : (s.setScript v).unmasked = s.unmasked := rfl
@[simp] theorem State.setScript_trap (v : List Turn) : (s.setScript v).trap = s.trap := rfl
@[simp] theorem State.setScript_frames (v : List Turn) : (s.setScript v).frames = s.frames := rfl
@[simp] theorem State.setScript_mem (v : List Turn) : (s.setScript v).mem = s.mem := rfl
@[simp] theorem State.setScript_text (v : List Turn) : (s.setScript v).text = s.text := rfl
@[simp] theorem State.setScript_script (v : List Turn) : (s.setScript v).script = v := rfl
@[simp] theorem State.setScript_draws (v : List Turn) : (s.setScript v).draws = s.draws := rfl
@[simp] theorem State.setScript_cfg (v : List Turn) : (s.setScript v).cfg = s.cfg := rfl

@[simp] theorem State.setDraws_cpu (v : Nat) : (s.setDraws v).cpu = s.cpu := rfl
@[simp] theorem State.setDraws_mon (v : Nat) : (s.setDraws v).mon = s.mon := rfl
@[simp] theorem State.setDraws_wait (v : Nat) : (s.setDraws v).wait = s.wait := rfl
@[simp] theorem State.setDraws_owed (v : Nat) : (s.setDraws v).owed = s.owed := rfl
@[simp] theorem State.setDraws_pend (v : Nat) : (s.setDraws v).pend = s.pend := rfl
@[simp] theorem State.setDraws_unmasked (v : Nat) : (s.setDraws v).unmasked = s.unmasked := rfl
@[simp] theorem State.setDraws_trap (v : Nat) : (s.setDraws v).trap = s.trap := rfl
@[simp] theorem State.setDraws_frames (v : Nat) : (s.setDraws v).frames = s.frames := rfl
@[simp] theorem State.setDraws_mem (v : Nat) : (s.setDraws v).mem = s.mem := rfl
@[simp] theorem State.setDraws_text (v : Nat) : (s.setDraws v).text = s.text := rfl
@[simp] theorem State.setDraws_script (v : Nat) : (s.setDraws v).script = s.script := rfl
@[simp] theorem State.setDraws_draws (v : Nat) : (s.setDraws v).draws = v := rfl
@[simp] theorem State.setDraws_cfg (v : Nat) : (s.setDraws v).cfg = s.cfg := rfl

@[simp] theorem State.setPc_mon (v : Nat) : (s.setPc v).mon = s.mon := rfl
@[simp] theorem State.setPc_wait (v : Nat) : (s.setPc v).wait = s.wait := rfl
@[simp] theorem State.setPc_owed (v : Nat) : (s.setPc v).owed = s.owed := rfl
@[simp] theorem State.setPc_pend (v : Nat) : (s.setPc v).pend = s.pend := rfl
@[simp] theorem State.setPc_unmasked (v : Nat) : (s.setPc v).unmasked = s.unmasked := rfl
@[simp] theorem State.setPc_trap (v : Nat) : (s.setPc v).trap = s.trap := rfl
@[simp] theorem State.setPc_frames (v : Nat) : (s.setPc v).frames = s.frames := rfl
@[simp] theorem State.setPc_mem (v : Nat) : (s.setPc v).mem = s.mem := rfl
@[simp] theorem State.setPc_text (v : Nat) : (s.setPc v).text = s.text := rfl
@[simp] theorem State.setPc_script (v : Nat) : (s.setPc v).script = s.script := rfl
@[simp] theorem State.setPc_draws (v : Nat) : (s.setPc v).draws = s.draws := rfl
@[simp] theorem State.setPc_cfg (v : Nat) : (s.setPc v).cfg = s.cfg := rfl
@[simp] theorem State.setPc_cpu_rax (v : Nat) : (s.setPc v).cpu.rax = s.cpu.rax := rfl
@[simp] theorem State.setPc_cpu_rcx (v : Nat) : (s.setPc v).cpu.rcx = s.cpu.rcx := rfl
@[simp] theorem State.setPc_cpu_edx (v : Nat) : (s.setPc v).cpu.edx = s.cpu.edx := rfl
@[simp] theorem State.setPc_cpu_intFlag (v : Nat) : (s.setPc v).cpu.intFlag = s.cpu.intFlag := rfl
@[simp] theorem State.setPc_cpu_mode (v : Nat) : (s.setPc v).cpu.mode = s.cpu.mode := rfl
@[simp] theorem State.setPc_cpu_cpl (v : Nat) : (s.setPc v).cpu.cpl = s.cpu.cpl := rfl
@[simp] theorem State.setPc_cpu_pc (v : Nat) : (s.setPc v).cpu.pc = v := rfl
theorem State.setPc_cpu (v : Nat) : (s.setPc v).cpu = { s.cpu with pc := v } := rfl

end Sys2Proof.Machine
end

