-- ==== Sys2Proof/Laws/Ops.lean ====
section
/-! SUPPORT. One lemma per shared operation that says everything it does, as the record it answers;
later proofs cite these and do not unfold the operation. -/

namespace Sys2Proof.Machine

variable (s : State)

/-! ### What each operation writes -/

theorem State.arm_eq (a : Nat) : s.arm a = { s with mon := .armed (s.monitorRange a) } := rfl

theorem State.armFail_eq : s.armFail = { s with mon := .idle } := rfl

theorem State.advancePc_eq : s.advancePc = { s with cpu := { s.cpu with pc := s.pcAfter } } := rfl

theorem State.completeMwait_eq :
    s.completeMwait = { s with mon := .triggered, cpu := { s.cpu with pc := s.pcAfter } } := rfl

theorem State.enterWait_eq :
    s.enterWait = { s with
      wait := some { hints := eax s.cpu, ext0 := ext0 s.cpu },
      cpu := { s.cpu with pc := s.pcAfter } } := rfl

theorem State.waitExit_eq :
    s.waitExit = { s with wait := none, owed := false, mon := .triggered } := rfl

theorem State.raiseEvent_eq (e : Event) :
    s.raiseEvent e = { s with pend := if s.pend.contains e then s.pend else s.pend ++ [e] } := rfl

theorem State.dropEvent_eq (e : Event) :
    s.dropEvent e = { s with pend := s.pend.filter (· != e) } := rfl

theorem State.raiseExn_eq (x : Exn) :
    s.raiseExn x = s.handedExn x (errorCode s.cpu.mode x) := rfl

theorem State.deliver_eq (e : Event) :
    s.deliver e = { s with
      pend := s.pend.filter (· != e), trap := some (.event e s.cpu.pc) } := rfl

theorem State.trapEntry_eq (r : TrapRecord) :
    s.trapEntry r = { s with
      frames := { record := r, mode := s.cpu.mode } :: s.frames, trap := none,
      cpu := Cfg.fit s.cfg (Config.trapEntry r s.cpu s.draws) } := rfl

theorem State.returnFromHandler_cons (f : Frame) (fs : List Frame) (h : s.frames = f :: fs) :
    s.returnFromHandler = { s with
      frames := fs, cpu := returnCpu s.cfg f s.cpu s.draws } := by
  simp only [State.returnFromHandler, h]; rfl

theorem State.reinit_eq (p : SignalState) (m : Monitor) :
    s.reinit p m = { s with
      cpu := Cfg.fit s.cfg p.cpu, mon := m, wait := none, owed := false, trap := none,
      frames := [], pend := p.pend, unmasked := p.unmasked } := rfl

/-- Everything taking a signal does: P's state is replaced by the parameter, with no wait, no armed
monitor, no exception and no handler. -/
theorem State.takeSignal_eq (e : Event) :
    ∃ m : Monitor, (∀ r, m ≠ .armed r) ∧ s.takeSignal e = s.reinit (s.signalState e) m := by
  have init : ∀ r, (if s.cfg.initTriggered then Monitor.triggered else .idle) ≠ .armed r := by
    intro r; split <;> simp
  cases e with
  | reset => exact ⟨.idle, by simp, rfl⟩
  | _ => exact ⟨_, init, rfl⟩

theorem State.takeSignal_reset : s.takeSignal .reset = s.reinit s.cfg.resetState .idle := rfl

theorem State.takeEvent_signal {e : Event} (h : Event.isSignal e = true) :
    s.takeEvent e = s.takeSignal e := by simp [State.takeEvent, h]

theorem State.takeEvent_event {e : Event} (h : Event.isSignal e = false) :
    s.takeEvent e = s.deliver e := by simp [State.takeEvent, h]

theorem State.inSmm_iff : s.inSmm = true ↔ ∃ f ∈ s.frames, ∃ a, f.record = .event .smi a := by
  simp only [State.inSmm, List.any_eq_true]
  constructor
  · rintro ⟨f, hf, h⟩; refine ⟨f, hf, ?_⟩; split at h <;> simp_all
  · rintro ⟨f, hf, a, h⟩; exact ⟨f, hf, by simp [h]⟩

theorem State.storeEffect_eq (st : StoreEvent) (seen : Bool) :
    s.storeEffect st seen = { s with
      mon := if s.storeTriggers st seen then .triggered else s.mon,
      mem := s.mem.writeBytes st.addr st.bytes } := by
  unfold State.storeEffect; split <;> rfl

theorem State.tick_eq :
    s.tick = { s with
      script := s.script.tail, draws := s.draws + 1,
      owed := s.wait.isSome && (s.owed || s.duty) } := rfl

@[simp] theorem State.tick_cpu : s.tick.cpu = s.cpu := rfl
@[simp] theorem State.tick_mon : s.tick.mon = s.mon := rfl
@[simp] theorem State.tick_wait : s.tick.wait = s.wait := rfl
@[simp] theorem State.tick_owed : s.tick.owed = (s.wait.isSome && (s.owed || s.duty)) := rfl
@[simp] theorem State.tick_pend : s.tick.pend = s.pend := rfl
@[simp] theorem State.tick_unmasked : s.tick.unmasked = s.unmasked := rfl
@[simp] theorem State.tick_trap : s.tick.trap = s.trap := rfl
@[simp] theorem State.tick_frames : s.tick.frames = s.frames := rfl
@[simp] theorem State.tick_mem : s.tick.mem = s.mem := rfl
@[simp] theorem State.tick_text : s.tick.text = s.text := rfl
@[simp] theorem State.tick_script : s.tick.script = s.script.tail := rfl
@[simp] theorem State.tick_draws : s.tick.draws = s.draws + 1 := rfl
@[simp] theorem State.tick_cfg : s.tick.cfg = s.cfg := rfl
@[simp] theorem State.tick_duty : s.tick.duty = s.duty := rfl
@[simp] theorem State.tick_notMasked (e : Event) : s.tick.notMasked e = s.notMasked e := rfl
@[simp] theorem State.tick_inSmm : s.tick.inSmm = s.inSmm := rfl
@[simp] theorem State.tick_takeable : s.tick.takeable = s.takeable := rfl
@[simp] theorem State.tick_monitorRange (a : Nat) : s.tick.monitorRange a = s.monitorRange a := rfl
@[simp] theorem State.tick_signalState (e : Event) : s.tick.signalState e = s.signalState e := rfl
@[simp] theorem State.tick_pcAfter : s.tick.pcAfter = s.pcAfter := rfl

theorem State.tick_of_not_waiting (h : s.wait = none) : s.tick = s.ticked := by
  simp [State.tick_eq, State.ticked, h]

@[simp] theorem State.ticked_cpu : s.ticked.cpu = s.cpu := rfl
@[simp] theorem State.ticked_mon : s.ticked.mon = s.mon := rfl
@[simp] theorem State.ticked_wait : s.ticked.wait = s.wait := rfl
@[simp] theorem State.ticked_owed : s.ticked.owed = false := rfl
@[simp] theorem State.ticked_pend : s.ticked.pend = s.pend := rfl
@[simp] theorem State.ticked_unmasked : s.ticked.unmasked = s.unmasked := rfl
@[simp] theorem State.ticked_trap : s.ticked.trap = s.trap := rfl
@[simp] theorem State.ticked_frames : s.ticked.frames = s.frames := rfl
@[simp] theorem State.ticked_mem : s.ticked.mem = s.mem := rfl
@[simp] theorem State.ticked_text : s.ticked.text = s.text := rfl
@[simp] theorem State.ticked_script : s.ticked.script = s.script.tail := rfl
@[simp] theorem State.ticked_draws : s.ticked.draws = s.draws + 1 := rfl
@[simp] theorem State.ticked_cfg : s.ticked.cfg = s.cfg := rfl
@[simp] theorem State.ticked_inSmm : s.ticked.inSmm = s.inSmm := rfl
@[simp] theorem State.ticked_pcAfter : s.ticked.pcAfter = s.pcAfter := rfl

theorem State.inSmm_congr {s t : State} (h : s.frames = t.frames) : s.inSmm = t.inSmm := by
  simp only [State.inSmm, h]

/-! ### Fields of the operands -/

theorem eax_eq (cpu : Cpu) : eax cpu = cpu.rax.setWidth 32 := by
  refine BitVec.eq_of_getLsbD_eq fun i hi => ?_
  simp only [eax, BitVec.getLsbD_extractLsb, BitVec.getLsbD_setWidth]
  simp [hi]

theorem ecx_eq (cpu : Cpu) : ecx cpu = cpu.rcx.setWidth 32 := by
  refine BitVec.eq_of_getLsbD_eq fun i hi => ?_
  simp only [ecx, BitVec.getLsbD_extractLsb, BitVec.getLsbD_setWidth]
  simp [hi]

theorem ext0_eq (cpu : Cpu) : ext0 cpu = cpu.rcx.getLsbD 0 := by
  simp [ext0, ecx_eq]

/-- A field is non-zero exactly when one of its bits is set. -/
theorem extractLsb_ne_zero {w : Nat} (v : BitVec w) (lo hi : Nat) (h : lo ≤ hi) :
    (v.extractLsb hi lo != 0) = true ↔ someBitSet v lo hi := by
  rw [bne_iff_ne]
  constructor
  · intro hne
    by_contra hno
    refine hne (BitVec.eq_of_getLsbD_eq fun i hi => ?_)
    rw [BitVec.getLsbD_extractLsb]
    by_cases hb : v.getLsbD (lo + i) = true
    · exact absurd ⟨lo + i, by omega, by omega, hb⟩ hno
    · simp [hb]
  · rintro ⟨n, hlo, hhi, hb⟩ e
    have := congrArg (fun x : BitVec _ => x.getLsbD (n - lo)) e
    simp only [BitVec.getLsbD_extractLsb] at this
    have e1 : lo + (n - lo) = n := by omega
    simp [e1, hb] at this
    omega

theorem reservedSet_iff (cpu : Cpu) : reservedSet cpu = true ↔ reservedBitsSet cpu := by
  have low : ((ecx cpu).extractLsb 31 1 != 0#31) = true ↔ someBitSet cpu.rcx 1 31 := by
    rw [show (0#31) = (0 : BitVec (31 - 1 + 1)) from rfl, extractLsb_ne_zero _ _ _ (by omega)]
    constructor
    · rintro ⟨n, h1, h2, hb⟩
      exact ⟨n, h1, h2, by simpa [ecx_eq, show n < 32 by omega] using hb⟩
    · rintro ⟨n, h1, h2, hb⟩
      exact ⟨n, h1, h2, by simpa [ecx_eq, show n < 32 by omega] using hb⟩
  cases h : cpu.mode <;> simp only [reservedSet, reservedBitsSet, h]
  case long64 => exact extractLsb_ne_zero cpu.rcx 1 63 (by omega)
  all_goals exact low

theorem hintReserved_eq (h : Dword) : hintReserved h = h.toNat / 256 := by
  simp [hintReserved, BitVec.extractLsb, Nat.shiftRight_eq_div_pow]
  omega

theorem targetField_eq (h : Dword) : targetField h = h.toNat / 16 % 16 := by
  simp [targetField, BitVec.extractLsb, Nat.shiftRight_eq_div_pow]

theorem subCState_eq (h : Dword) : subCState h = h.toNat % 16 := by
  simp [subCState, BitVec.extractLsb]

theorem allStoresWake_iff (c : Cfg) (h : Dword) :
    allStoresWake c h = true ↔
      h.toNat < 256 ∧ (h.toNat / 16 = 0 ∨ h.toNat / 16 = 15) ∧
        (c.cpuid05Ecx0 = true ∨ h.toNat = 0) := by
  have hz : (h = 0) ↔ h.toNat = 0 := by
    rw [← BitVec.toNat_inj]; rfl
  simp only [allStoresWake, hintReserved_eq, targetField_eq, Bool.and_eq_true, Bool.or_eq_true,
    beq_iff_eq, hz]
  have field : (h.toNat / 256 = 0 ∧ (h.toNat / 16 % 16 = 0 ∨ h.toNat / 16 % 16 = 15)) ↔
      h.toNat < 256 ∧ (h.toNat / 16 = 0 ∨ h.toNat / 16 = 15) := by omega
  rw [field, and_assoc]

/-! ### Duty and masking -/

theorem Monitor.isArmed_iff (m : Monitor) : m.isArmed = true ↔ ∃ r, m = .armed r := by
  cases m <;> simp [Monitor.isArmed]

theorem Monitor.not_isArmed_iff (m : Monitor) : m.isArmed = false ↔ ∀ r, m ≠ .armed r := by
  cases m <;> simp [Monitor.isArmed]

theorem Event.isSignal_iff (e : Event) : Event.isSignal e = true ↔ e ∈ [Event.reset, .init, .binit] := by
  cases e <;> simp [Event.isSignal]

theorem Event.endsWait_iff (e : Event) :
    Event.endsWait e = true ↔ e ∈ [Event.nmi, .smi, .db, .mc, .binit, .init, .reset] := by
  cases e <;> simp [Event.endsWait]

theorem State.notMasked_iff (e : Event) :
    s.notMasked e = true ↔ e ∈ s.unmasked ∧ (s.cpu.intFlag = true ∨ ∀ i, e ≠ .extint i) := by
  cases e <;> simp [State.notMasked, Event.isExternal]

theorem State.mem_takeable (e : Event) :
    e ∈ s.takeable ↔ e ∈ s.pend ∧ (Event.isSignal e = true ∨ s.notMasked e = true) := by
  simp [State.takeable]

theorem State.duty_eq {w : WaitCtx} (h : s.wait = some w) :
    s.duty = (s.dutyUncond || s.dutyInt w) := by simp [State.duty, h]

theorem State.dutyUncond_iff :
    s.dutyUncond = true ↔
      (∀ r, s.mon ≠ .armed r) ∨
      ∃ e ∈ s.pend, e ∈ [Event.nmi, .smi, .db, .mc, .binit, .init, .reset] := by
  simp only [State.dutyUncond, Bool.or_eq_true, List.any_eq_true, Bool.not_eq_true',
    Monitor.not_isArmed_iff, Event.endsWait_iff]

theorem State.dutyInt_iff (w : WaitCtx) :
    s.dutyInt w = true ↔
      ∃ i, Event.extint i ∈ s.pend ∧
        (w.ext0 = true ∨ (s.cpu.intFlag = true ∧ Event.extint i ∈ s.unmasked)) := by
  simp only [State.dutyInt, List.any_eq_true, Bool.and_eq_true, Bool.or_eq_true,
    State.notMasked_iff]
  constructor
  · rintro ⟨e, he, hx, hd⟩
    cases e <;> simp_all [Event.isExternal]
    next i => exact ⟨i, he, by tauto⟩
  · rintro ⟨i, hi, hd⟩
    exact ⟨.extint i, hi, rfl, by simp; tauto⟩

/-! ### Store events -/

theorem StoreEvent.mem_addrs (st : StoreEvent) (a : Nat) :
    a ∈ st.addrs ↔ ∃ k, k < st.more.length + 1 ∧ st.addr + k = a := by
  simp [StoreEvent.addrs, StoreEvent.bytes]

theorem Range.has_iff (r : Range) (a : Nat) : Range.has r a = true ↔ a = r.first ∨ a ∈ r.more := by
  simp [Range.has]

theorem StoreEvent.overlaps_iff (st : StoreEvent) (r : Range) :
    st.overlaps r = true ↔ overlapsRange st r := by
  simp only [StoreEvent.overlaps, List.any_eq_true, StoreEvent.mem_addrs, Range.has_iff,
    overlapsRange]
  constructor
  · rintro ⟨_, ⟨k, hk, rfl⟩, h⟩; exact ⟨k, hk, h⟩
  · rintro ⟨k, hk, h⟩; exact ⟨_, ⟨k, hk, rfl⟩, h⟩

theorem State.overlapsText_iff (st : StoreEvent) :
    st.addrs.any s.text.contains = true ↔ overlapsText st s := by
  simp only [List.any_eq_true, StoreEvent.mem_addrs, overlapsText, List.contains_iff_mem]
  constructor
  · rintro ⟨_, ⟨k, hk, rfl⟩, h⟩; exact ⟨k, hk, h⟩
  · rintro ⟨k, hk, h⟩; exact ⟨_, ⟨k, hk, rfl⟩, h⟩

/-- A store triggers only an armed monitor whose range it overlaps. -/
theorem State.storeTriggers_armed (st : StoreEvent) (seen : Bool)
    (h : s.storeTriggers st seen = true) : ∃ r, s.mon = .armed r ∧ overlapsRange st r := by
  unfold State.storeTriggers at h
  split at h
  · next r hr =>
    exact ⟨r, hr, (StoreEvent.overlaps_iff st r).mp (by simp_all)⟩
  · cases h
  · cases h

/-- A store leaves every byte alone it does not write. -/
theorem State.storeEffect_read_other (st : StoreEvent) (seen : Bool) (a : Nat)
    (h : ∀ k, k < st.more.length + 1 → a ≠ st.addr + k) :
    (s.storeEffect st seen).mem.read a = s.mem.read a := by
  rw [State.storeEffect_eq]
  exact Memory.read_writeBytes_other _ _ _ _ (by simpa [StoreEvent.bytes] using h)

/-! ### MonitorRange -/

/-- `MonitorRange` depends on the configuration alone. -/
theorem State.monitorRange_congr {s t : State} (h : t.cfg = s.cfg) (a : Nat) :
    t.monitorRange a = s.monitorRange a := by simp only [State.monitorRange, h]

theorem State.monitorRange_of_cfg {a : Nat} {r : Range} (h : s.cfg.ranges.lookup a = some r) :
    s.monitorRange a = r := by simp only [State.monitorRange, h]

theorem ascending_addrsAfter (a : Nat) (gs : List Nat) : ascending (a :: addrsAfter a gs) = true := by
  induction gs generalizing a with
  | nil => rfl
  | cons g gs ih => simp only [addrsAfter, ascending, ih, Bool.and_true, decide_eq_true_eq]; omega

theorem mem_of_lookup {l : List (Nat × Range)} {a : Nat} {r : Range} (h : l.lookup a = some r) :
    (a, r) ∈ l := by
  induction l with
  | nil => cases h
  | cons p l ih =>
    rw [List.lookup] at h
    split at h
    · next hp => cases h; rw [eq_of_beq hp]; exact List.mem_cons_self
    · exact List.mem_cons_of_mem _ (ih h)

/-- Every range of a legal configuration is a set of addresses. -/
theorem State.monitorRange_wellFormed (h : s.cfg.wellFormed = true) (a : Nat) :
    (s.monitorRange a).wellFormed = true := by
  unfold State.monitorRange
  split
  · next r hr =>
    simp only [Cfg.wellFormed, Bool.and_eq_true, List.all_eq_true] at h
    exact h.2 _ (mem_of_lookup hr)
  · exact ascending_addrsAfter _ _

/-! ### Widths -/

/-- A legal configuration gives the signals states whose registers fit and whose `PEND` is a set. -/
theorem State.signalState_wellFormed (h : s.cfg.wellFormed = true) (e : Event) :
    (s.signalState e).cpu.fits s.cfg = true ∧ (s.signalState e).pend.Nodup := by
  simp only [Cfg.wellFormed, SignalState.wellFormed, Bool.and_eq_true, decide_eq_true_eq] at h
  unfold State.signalState
  split
  · exact h.1.1
  · exact h.1.2

theorem Cfg.fit_pc_lt (c : Cfg) (cpu : Cpu) :
    (Cfg.fit c cpu).pc < 2 ^ c.ipw (Cfg.fit c cpu).mode :=
  Nat.mod_lt _ (Nat.two_pow_pos _)

theorem Cfg.fit_of_fits (c : Cfg) (cpu : Cpu) (h : cpu.fits c = true) : Cfg.fit c cpu = cpu := by
  have : cpu.pc % 2 ^ c.ipw cpu.mode = cpu.pc := Nat.mod_eq_of_lt (by simpa [Cpu.fits] using h)
  simp [Cfg.fit, this]

theorem State.pcAfter_lt : s.pcAfter < 2 ^ s.cfg.ipw s.cpu.mode :=
  Nat.mod_lt _ (Nat.two_pow_pos _)

end Sys2Proof.Machine
end

