-- ==== Sys2Proof/Laws/Mwait.lean ====
section
/-! SUPPORT. What the fetch answers, what MWAIT's checks answer, and everything `exec` can do. -/

namespace Sys2Proof.Machine

/-! ### Fetch -/

/-- The program text at `a` holds the bytes of MWAIT. -/
def State.mwaitAt (s : State) (a : Nat) : Prop :=
  s.textByte a = some 0x0F ∧ s.textByte (a + 1) = some 0x01 ∧ s.textByte (a + 2) = some 0xC9

theorem State.textBytes_eq_mwait_iff (s : State) (a : Nat) (rest : List Byte) :
    s.textBytes a maxLength = 0x0F :: 0x01 :: 0xC9 :: rest ↔ rest = [] ∧ s.mwaitAt a := by
  simp only [maxLength, State.textBytes, State.mwaitAt, Nat.add_assoc, Nat.reduceAdd]
  cases h0 : s.textByte a <;> cases h1 : s.textByte (a + 1) <;> cases h2 : s.textByte (a + 2) <;>
    simp
  tauto

/-- The fetch gives an instruction exactly when the bytes of MWAIT stand at `pc` below the top. -/
theorem State.fetch_ok_iff (s : State) (i : Instr) :
    s.fetch = .ok i ↔ s.cpu.pc + 3 ≤ 2 ^ s.cfg.ipw s.cpu.mode ∧ s.mwaitAt s.cpu.pc := by
  cases i
  unfold State.fetch
  split
  · next h => simp [maxLength] at h; simp; omega
  · next h =>
    have hle : s.cpu.pc + 3 ≤ 2 ^ s.cfg.ipw s.cpu.mode := by simpa [maxLength] using h
    simp only [hle, true_and]
    split
    · next j rest hd =>
      have := (decode_ok_iff _ _ _).mp hd
      cases j
      simp [((s.textBytes_eq_mwait_iff _ _).mp this.2).2]
    · next e hd =>
      simp only [reduceCtorEq, false_iff]
      intro hm
      have := (s.textBytes_eq_mwait_iff _ []).mpr ⟨rfl, hm⟩
      rw [this] at hd
      cases hd

/-- The fetch refuses by name. -/
theorem State.fetch_error (s : State) (r : Refusal) (h : s.fetch = .error r) :
    (r = .straddlesTop ∧ 2 ^ s.cfg.ipw s.cpu.mode < s.cpu.pc + 3) ∨
    ((r = .notMwait ∨ r = .prefixedForm ∨ r = .endOfText) ∧
      s.cpu.pc + 3 ≤ 2 ^ s.cfg.ipw s.cpu.mode) := by
  unfold State.fetch at h
  split at h
  · next hlt => cases h; exact .inl ⟨rfl, hlt⟩
  · next hge =>
    split at h
    · cases h
    · next e _ =>
      cases h
      refine .inr ⟨?_, by simpa [maxLength] using hge⟩
      cases e <;> simp [DecodeError.toRefusal]

theorem State.execNext_of_mwaitAt (s : State) (h : s.cpu.pc + 3 ≤ 2 ^ s.cfg.ipw s.cpu.mode)
    (hm : s.mwaitAt s.cpu.pc) : s.execNext = exec .mwait s := by
  simp [State.execNext, (s.fetch_ok_iff .mwait).mpr ⟨h, hm⟩]

/-! ### The checks -/

theorem testsCpl_iff (m : Mode) : testsCpl m = true ↔ m ≠ .real ∧ m ≠ .v86 := by
  cases m <;> simp [testsCpl]

/-- A #UD condition of 40_mwait.md R81 to R83 holds. -/
def udCondition (cpu : Cpu) (c : Cfg) : Prop :=
  cpu.mode = .v86 ∨ c.cpuid01Ecx3 = false ∨ (cpu.mode ≠ .real ∧ cpu.cpl ≠ 0)

theorem mwaitCheck_ud_iff (cpu : Cpu) (c : Cfg) :
    mwaitCheck cpu c = some .ud ↔ udCondition cpu c := by
  simp only [mwaitCheck, udCondition]
  split_ifs <;> simp_all [testsCpl_iff]

theorem mwaitCheck_none_iff (cpu : Cpu) (c : Cfg) :
    mwaitCheck cpu c = none ↔ MwaitAllowed cpu c := by
  have e : MwaitAllowed cpu c ↔ ¬ udCondition cpu c ∧ reservedSet cpu = false ∧
      (ext0 cpu = true → c.cpuid05Ecx1 = true) := by
    rw [← Bool.not_eq_true, reservedSet_iff, ext0_eq]
    simp only [udCondition]
    constructor
    · rintro ⟨h1, h2, h3, h4, h5⟩
      exact ⟨by simp [h1, h2]; tauto, h4, h5⟩
    · rintro ⟨h1, h4, h5⟩
      simp only [not_or, not_and, ne_eq, not_not] at h1
      exact ⟨h1.1, by simpa using h1.2.1, by by_cases hr : cpu.mode = .real <;> simp_all, h4, h5⟩
  rw [e, ← mwaitCheck_ud_iff]
  simp only [mwaitCheck]
  split_ifs <;> simp_all

/-- The exception raised, when one is: #UD before #GP (40_mwait.md R86). -/
theorem mwaitCheck_some (cpu : Cpu) (c : Cfg) (x : Exn) (h : mwaitCheck cpu c = some x) :
    ¬ MwaitAllowed cpu c ∧ (x = .ud ∧ udCondition cpu c ∨ x = .gp ∧ ¬ udCondition cpu c) := by
  refine ⟨fun ha => by simp [(mwaitCheck_none_iff cpu c).mpr ha] at h, ?_⟩
  cases x with
  | ud => exact .inl ⟨rfl, (mwaitCheck_ud_iff cpu c).mp h⟩
  | gp => exact .inr ⟨rfl, fun hu => by simp [(mwaitCheck_ud_iff cpu c).mpr hu] at h⟩

theorem mwaitCheck_gp (cpu : Cpu) (c : Cfg) (hu : ¬ udCondition cpu c) (ha : ¬ MwaitAllowed cpu c) :
    mwaitCheck cpu c = some .gp := by
  cases h : mwaitCheck cpu c with
  | none => exact absurd ((mwaitCheck_none_iff cpu c).mp h) ha
  | some x =>
    rcases (mwaitCheck_some cpu c x h).2 with ⟨_, h'⟩ | ⟨rfl, _⟩
    · exact absurd h' hu
    · rfl

theorem errorCode_ud (m : Mode) : errorCode m .ud = none := rfl

theorem errorCode_gp (m : Mode) : errorCode m .gp = gpCode m := by
  cases m <;> rfl

theorem State.raiseExn_ud (s : State) : s.raiseExn .ud = s.handedExn .ud none := rfl

theorem State.raiseExn_gp (s : State) : s.raiseExn .gp = s.handedExn .gp (gpCode s.cpu.mode) := by
  rw [State.raiseExn_eq, errorCode_gp]

/-! ### exec -/

theorem exec_mwait (s : State) : exec .mwait s = execMwait s := rfl

/-- MWAIT where it may execute, with an exception condition met. -/
theorem exec_mwait_raises (s : State) (h : s.mayExecute) {x : Exn}
    (hc : mwaitCheck s.cpu s.cfg = some x) : exec .mwait s = .next (s.raiseExn x) := by
  obtain ⟨hw, hg, hs⟩ := h
  simp [exec_mwait, execMwait, hw, hg, hs, hc]

/-- MWAIT where it may execute, with every check passed. -/
theorem exec_mwait_operates (s : State) (h : s.mayExecute) (ha : MwaitAllowed s.cpu s.cfg) :
    exec .mwait s = .next (mwaitOperate s) := by
  obtain ⟨hw, hg, hs⟩ := h
  simp [exec_mwait, execMwait, hw, hg, hs, (mwaitCheck_none_iff _ _).mpr ha]

theorem mwaitOperate_armed (s : State) (r : Range) (h : s.mon = .armed r) :
    mwaitOperate s = s.enterWait := by
  simp [mwaitOperate, h, Monitor.isArmed]

theorem mwaitOperate_not_armed (s : State) (h : ∀ r, s.mon ≠ .armed r) :
    mwaitOperate s = s.completeMwait := by
  simp [mwaitOperate, (Monitor.not_isArmed_iff s.mon).mpr h]

/-- Everything a next state of MWAIT can be: an exception was raised, or it completed with the
monitor not armed, or it entered the wait. -/
theorem exec_mwait_next (s t : State) (h : exec .mwait s = .next t) :
    s.mayExecute ∧
    ((∃ x, mwaitCheck s.cpu s.cfg = some x ∧ t = s.raiseExn x) ∨
     (MwaitAllowed s.cpu s.cfg ∧ (∀ r, s.mon ≠ .armed r) ∧ t = s.completeMwait) ∨
     (MwaitAllowed s.cpu s.cfg ∧ (∃ r, s.mon = .armed r) ∧ t = s.enterWait)) := by
  have hm : s.mayExecute := by
    rw [exec_mwait, execMwait] at h
    split_ifs at h with hw hg hs
    exact ⟨by simpa using hw, by simpa using hg, by simpa using hs⟩
  refine ⟨hm, ?_⟩
  cases hc : mwaitCheck s.cpu s.cfg with
  | some x => rw [exec_mwait_raises s hm hc] at h; cases h; exact .inl ⟨x, rfl, rfl⟩
  | none =>
    have ha := (mwaitCheck_none_iff _ _).mp hc
    rw [exec_mwait_operates s hm ha] at h; cases h
    by_cases hr : ∃ r, s.mon = .armed r
    · obtain ⟨r, hr⟩ := hr
      exact .inr (.inr ⟨ha, ⟨r, hr⟩, mwaitOperate_armed s r hr⟩)
    · have hr : ∀ r, s.mon ≠ .armed r := fun r e => hr ⟨r, e⟩
      exact .inr (.inl ⟨ha, hr, mwaitOperate_not_armed s hr⟩)

end Sys2Proof.Machine
end

