-- ==== Sys2Proof/Laws/PerInstr.lean ====
section
/-! SUPPORT. The family of statements made per instruction: its encoding is read back whole, whatever
follows it, and has the length of 30_encoding.md R63. -/

namespace Sys2Proof.Laws.Encoding

def Statement (i : Instr) : Prop :=
  i.wellFormed = true → ∀ rest, decode (encode i ++ rest) = .ok (i, rest) ∧ i.length = 3

theorem mwait : Statement .mwait := fun _ rest => ⟨decode_encode .mwait rest, rfl⟩

end Sys2Proof.Laws.Encoding
end

