-- ==== Sys2Proof/Laws/Turn.lean ====
section
/-! SUPPORT. Everything one turn can do, said once: `runTurn_moves` and `step_moves`. Invariants are
proved by cases on `Moves`, without unfolding the step. -/

namespace Sys2Proof.Machine

/-- `Moves s t u`: the turn `t` takes `s` to `u`. One constructor for each thing a turn can do. -/
inductive Moves (s : State) : Turn → State → Prop where
  /-- P's turn ends the wait: an exit is owed, a duty holds, or a liberty is taken. -/
  | waitExit (pick : Nat) : s.wait.isSome →
      (s.owed = true ∨ s.duty = true ∨ pick % 2 = 1) → Moves s (.self pick) s.waitExit
  /-- P's turn leaves the wait as it is. -/
  | waitStay (pick : Nat) : s.wait.isSome → s.owed = false → s.duty = false → pick % 2 ≠ 1 →
      Moves s (.self pick) s
  /-- `TrapEntry` acts. -/
  | trapEntry (pick : Nat) (r : TrapRecord) : s.wait = none → s.trap = some r →
      Moves s (.self pick) (s.trapEntry r)
  /-- P takes a pending signal. -/
  | signal (pick : Nat) (e : Event) (m : Monitor) : s.wait = none → s.trap = none → e ∈ s.pend →
      Event.isSignal e = true → (∀ r, m ≠ .armed r) →
      Moves s (.self pick) (s.reinit (s.signalState e) m)
  /-- P delivers an event. -/
  | deliver (pick : Nat) (e : Event) : s.wait = none → s.trap = none → e ∈ s.pend →
      Event.isSignal e = false → s.notMasked e = true → Moves s (.self pick) (s.deliver e)
  /-- P executes MWAIT. -/
  | execute (pick : Nat) (u : State) : s.trap = none →
      s.cpu.pc + 3 ≤ 2 ^ s.cfg.ipw s.cpu.mode → s.mwaitAt s.cpu.pc →
      exec .mwait s = .next u → Moves s (.self pick) u
  /-- MONITOR arms. -/
  | arm (a : Nat) : s.wait = none → s.trap = none → Moves s (.arm a) (s.arm a)
  /-- MONITOR does not arm. -/
  | armFail : s.wait = none → s.trap = none → Moves s .armFail s.armFail
  /-- A handler returns. -/
  | handlerReturn (f : Frame) (fs : List Frame) : s.wait = none → s.trap = none →
      s.frames = f :: fs → Moves s .handlerReturn s.returnFromHandler
  /-- A store event is carried out. -/
  | store (st : StoreEvent) (seen : Bool) : (st.agent ≠ .self ∨ s.wait = none) →
      ¬ overlapsText st s → Moves s (.store st seen) (s.storeEffect st seen)
  /-- An event is raised. -/
  | raise (e : Event) : Moves s (.raise e) (s.raiseEvent e)
  /-- An event is withdrawn. -/
  | withdraw (e : Event) : Moves s (.withdraw e) (s.dropEvent e)
  /-- The platform's masking changes. -/
  | setUnmasked (l : List Event) : Moves s (.setUnmasked l) (s.setUnmasked l)
  /-- The implementation ends the wait. -/
  | spurious : s.wait.isSome → Moves s .spurious s.waitExit
  /-- The turn passes. -/
  | pass (t : Turn) : (∀ pick, t ≠ .self pick) → Moves s t s

variable {s u : State}

theorem State.chooseTurn_next {pick : Nat} (hw : s.wait = none) (ht : s.trap = none)
    (h : s.chooseTurn pick = .next u) : Moves s (.self pick) u := by
  unfold State.chooseTurn at h
  split at h
  · next e he =>
    cases h
    obtain ⟨hp, hm⟩ := (s.mem_takeable e).mp (List.mem_of_getElem? he)
    cases hs : Event.isSignal e
    · rw [s.takeEvent_event hs]
      exact .deliver pick e hw ht hp hs (by simpa [hs] using hm)
    · obtain ⟨m, harm, hm⟩ := s.takeSignal_eq e
      rw [s.takeEvent_signal hs, hm]
      exact .signal pick e m hw ht hp hs harm
  · unfold State.execNext at h
    split at h
    · next i hi =>
      cases i
      have hf := (s.fetch_ok_iff .mwait).mp hi
      exact .execute pick u ht hf.1 hf.2 h
    · cases h

theorem State.selfTurn_next {pick : Nat} (h : s.selfTurn pick = .next u) :
    Moves s (.self pick) u := by
  unfold State.selfTurn at h
  split at h
  · next hw =>
    cases h
    unfold State.waitTurn
    split
    · next hc => exact .waitExit pick hw (by simpa [or_assoc] using hc)
    · next hc =>
      simp only [Bool.or_eq_true, beq_iff_eq, not_or] at hc
      exact .waitStay pick hw (by simpa using hc.1.1) (by simpa using hc.1.2) hc.2
  · next hw =>
    have hw : s.wait = none := by simpa using hw
    split at h
    · next r ht => cases h; exact .trapEntry pick r hw ht
    · next ht => exact State.chooseTurn_next hw ht h

theorem State.free_iff : s.free = true ↔ s.wait = none ∧ s.trap = none := by
  simp [State.free]

/-- Everything a turn can do. -/
theorem runTurn_moves {t : Turn} (h : s.runTurn t = .next u) : Moves s t u := by
  cases t <;> simp only [State.runTurn] at h
  case self pick => exact State.selfTurn_next h
  case arm a =>
    cases h
    split
    · next hf => exact .arm a (State.free_iff.mp hf).1 (State.free_iff.mp hf).2
    · exact .pass _ (by simp)
  case armFail =>
    cases h
    split
    · next hf => exact .armFail (State.free_iff.mp hf).1 (State.free_iff.mp hf).2
    · exact .pass _ (by simp)
  case handlerReturn =>
    cases h
    split
    · next hf =>
      cases hfr : s.frames with
      | nil => rw [show s.returnFromHandler = s by simp [State.returnFromHandler, hfr]]
               exact .pass _ (by simp)
      | cons f fs => exact .handlerReturn f fs (State.free_iff.mp hf).1 (State.free_iff.mp hf).2 hfr
    · exact .pass _ (by simp)
  case store st seen =>
    unfold State.storeTurn at h
    split_ifs at h with hself htext
    · cases h; exact .pass _ (by simp)
    · cases h
      rw [s.overlapsText_iff] at htext
      refine .store st seen ?_ htext
      by_cases ha : st.agent = .self
      · exact .inr (by simpa [ha] using hself)
      · exact .inl ha
  case access => cases h; exact .pass _ (by simp)
  case raise e => cases h; exact .raise e
  case withdraw e => cases h; exact .withdraw e
  case setUnmasked l => cases h; exact .setUnmasked l
  case spurious =>
    cases h
    split
    · next hw => exact .spurious hw
    · exact .pass _ (by simp)

/-- Everything a step can do: `obtain` the turn and go by cases on what it did. -/
theorem step_moves (h : step s = .next u) : ∃ t, s.nextTurn = t ∧ Moves s.tick t u :=
  ⟨_, rfl, runTurn_moves h⟩

/-! ### What the turns of a given kind answer -/

theorem step_cons {t : Turn} {rest : List Turn} (h : s.script = t :: rest) :
    step s = s.tick.runTurn t := by
  simp [step, State.nextTurn, h]

/-- P's turn ends a wait whose exit is owed. -/
theorem runTurn_self_owed (pick : Nat) (hw : s.wait.isSome) (ho : s.owed = true ∨ s.duty = true) :
    s.runTurn (.self pick) = .next s.waitExit := by
  rcases ho with h | h <;> simp [State.runTurn, State.selfTurn, State.waitTurn, hw, h]

/-- P's turn with a record at `TrapEntry`. -/
theorem runTurn_self_trap (pick : Nat) (r : TrapRecord) (hw : s.wait = none)
    (ht : s.trap = some r) : s.runTurn (.self pick) = .next (s.trapEntry r) := by
  simp [State.runTurn, State.selfTurn, hw, ht]

/-- P's turn where it chooses. -/
theorem runTurn_self_choose (pick : Nat) (hw : s.wait = none) (ht : s.trap = none) :
    s.runTurn (.self pick) = s.chooseTurn pick := by
  simp [State.runTurn, State.selfTurn, hw, ht]

/-- Every pending event P may take has a choice that takes it. -/
theorem runTurn_self_take {e : Event} (hw : s.wait = none) (ht : s.trap = none)
    (he : e ∈ s.takeable) : ∃ pick, s.runTurn (.self pick) = .next (s.takeEvent e) := by
  obtain ⟨i, hi, rfl⟩ := List.getElem_of_mem he
  refine ⟨i, ?_⟩
  rw [runTurn_self_choose i hw ht, State.chooseTurn, Nat.mod_eq_of_lt (by omega),
    List.getElem?_eq_getElem hi]

/-- A store event that is carried out. -/
theorem runTurn_store (st : StoreEvent) (seen : Bool) (h : st.agent ≠ .self ∨ s.wait = none)
    (ht : ¬ overlapsText st s) : s.runTurn (.store st seen) = .next (s.storeEffect st seen) := by
  simp only [State.runTurn, State.storeTurn]
  rw [if_neg, if_neg]
  · rw [s.overlapsText_iff]; exact ht
  · rcases h with h | h <;> simp [h]

/-- P's turn where it executes. -/
theorem runTurn_self_execute (pick : Nat) (hw : s.wait = none) (ht : s.trap = none)
    (hp : pick % (s.takeable.length + 1) = s.takeable.length) :
    s.runTurn (.self pick) = s.execNext := by
  rw [runTurn_self_choose pick hw ht, State.chooseTurn, hp]
  simp

theorem step_of_turnExecutes (h : s.turnExecutes) : step s = s.ticked.execNext := by
  obtain ⟨hw, ht, pick, hn, hp⟩ := h
  rw [step, hn, s.tick_of_not_waiting hw]
  exact runTurn_self_execute pick hw ht hp

/-! ### Placing an instruction -/

@[simp] theorem State.placeAtPc_cpu (bs : List Byte) : (s.placeAtPc bs).cpu = s.cpu := rfl
@[simp] theorem State.placeAtPc_mon (bs : List Byte) : (s.placeAtPc bs).mon = s.mon := rfl
@[simp] theorem State.placeAtPc_wait (bs : List Byte) : (s.placeAtPc bs).wait = none := rfl
@[simp] theorem State.placeAtPc_trap (bs : List Byte) : (s.placeAtPc bs).trap = none := rfl
@[simp] theorem State.placeAtPc_frames (bs : List Byte) : (s.placeAtPc bs).frames = s.frames := rfl
@[simp] theorem State.placeAtPc_cfg (bs : List Byte) : (s.placeAtPc bs).cfg = s.cfg := rfl
@[simp] theorem State.placeAtPc_inSmm (bs : List Byte) : (s.placeAtPc bs).inSmm = s.inSmm := rfl

theorem State.placeAtPc_mem (bs : List Byte) :
    (s.placeAtPc bs).mem = s.mem.writeBytes s.cpu.pc bs := rfl

theorem State.placeAtPc_text (bs : List Byte) :
    (s.placeAtPc bs).text = addAddrs s.text ((List.range bs.length).map (s.cpu.pc + ·)) := rfl

@[simp] theorem State.placeAtPc_pend (bs : List Byte) : (s.placeAtPc bs).pend = s.pend := rfl

theorem State.placeAtPc_script (bs : List Byte) :
    (s.placeAtPc bs).script = .self (s.placeAtPc bs).takeable.length :: s.script := rfl

theorem mem_addAddrs (l as : List Nat) (a : Nat) : a ∈ addAddrs l as ↔ a ∈ l ∨ a ∈ as := by
  unfold addAddrs
  induction as generalizing l with
  | nil => simp
  | cons b as ih =>
    rw [List.foldl_cons, ih, List.mem_cons]
    split
    · next h =>
      have hb : b ∈ l := by simpa using h
      constructor
      · rintro (h1 | h1)
        · exact .inl h1
        · exact .inr (.inr h1)
      · rintro (h1 | rfl | h1)
        · exact .inl h1
        · exact .inl hb
        · exact .inr h1
    · simp only [List.mem_append, List.mem_singleton, or_assoc]

/-- The next turn executes at `pc`, where the placed bytes stand as program text. -/
theorem State.placeAtPc_turnExecutes (bs : List Byte) : (s.placeAtPc bs).turnExecutes := by
  refine ⟨rfl, rfl, (s.placeAtPc bs).takeable.length, ?_, Nat.mod_eq_of_lt (by omega)⟩
  rw [State.nextTurn, State.placeAtPc_script]

theorem State.placeAtPc_textByte (bs : List Byte) (k : Nat) (hk : k < bs.length) :
    (s.placeAtPc bs).textByte (s.cpu.pc + k) = bs[k]? := by
  have ht : (s.placeAtPc bs).text.contains (s.cpu.pc + k) = true := by
    rw [List.contains_iff_mem, State.placeAtPc_text, mem_addAddrs]
    exact .inr (List.mem_map.mpr ⟨k, List.mem_range.mpr hk, rfl⟩)
  rw [State.textByte, if_pos ht, State.placeAtPc_mem, Memory.read_writeBytes_at _ _ _ _ hk]

/-! ### Runs -/

theorem runSteps_succ (k : Nat) (s : State) (t : State) (h : step s = .next t) :
    runSteps (k + 1) s = runSteps k t := by
  simp [runSteps, h]

/-- The last step of a run. -/
theorem runSteps_last (k : Nat) (s t : State) (h : runSteps (k + 1) s = .next t) :
    ∃ v, runSteps k s = .next v ∧ step v = .next t := by
  induction k generalizing s with
  | zero =>
    refine ⟨s, rfl, ?_⟩
    simp only [runSteps] at h
    split at h <;> simp_all
  | succ k ih =>
    cases hs : step s with
    | next v => rw [runSteps_succ _ _ _ hs] at h ⊢; exact ih v h
    | fault r => simp [runSteps, hs] at h
    | refused r => simp [runSteps, hs] at h

/-- A property every step keeps holds at the end of every run. -/
theorem runSteps_keeps {P : State → Prop} (hstep : ∀ s t, P s → step s = .next t → P t) :
    ∀ (k : Nat) (s t : State), P s → runSteps k s = .next t → P t
  | 0, _, _, hp, h => by cases h; exact hp
  | k + 1, s, t, hp, h => by
    cases hs : step s with
    | next v =>
      rw [runSteps_succ k s v hs] at h
      exact runSteps_keeps hstep k v t (hstep s v hp hs) h
    | fault r => simp [runSteps, hs] at h
    | refused r => simp [runSteps, hs] at h

theorem core_run_next (M : Host.Core) (k : Nat) (s t : M.State) (h : M.step s = .next t) :
    M.run (k + 1) s = M.run k t := by
  simp [Host.Core.run, h]

theorem core_run_fault (M : Host.Core) (k : Nat) (s : M.State) (r : M.Fault)
    (h : M.step s = .fault r) : M.run (k + 1) s = .fault r := by
  simp [Host.Core.run, h]

theorem core_run_refused (M : Host.Core) (k : Nat) (s : M.State) (r : M.Refusal)
    (h : M.step s = .refused r) : M.run (k + 1) s = .refused r := by
  simp [Host.Core.run, h]

/-- The host's runner and `runSteps` agree. -/
theorem run_core (k : Nat) (s : State) : Host.Core.run Sys2Proof.core k s = runSteps k s := by
  induction k generalizing s with
  | zero => rfl
  | succ k ih =>
    cases h : step s with
    | next t =>
      rw [runSteps_succ k s t h]
      exact (core_run_next Sys2Proof.core k s t h).trans (ih t)
    | fault r => exact (core_run_fault Sys2Proof.core k s r h).trans (by simp only [runSteps, h]; rfl)
    | refused r => exact (core_run_refused Sys2Proof.core k s r h).trans (by simp only [runSteps, h]; rfl)

end Sys2Proof.Machine
end

