-- ==== Sys2Proof/Tests/Slice0.lean ====
section
/-! SUPPORT. Tests with results taken from the spec (95_test_vectors.md), the smoke test of the
well-formedness checks, and for every statement a concrete state that meets its hypotheses. -/

namespace Sys2Proof.Tests

open Sys2Proof.Machine

/-! ### Well-formedness: an ill-formed term for each check -/

theorem test_ascending_refuses_a_repeat : ascending [1, 2, 2] = false := by decide

theorem test_range_refuses_descending_addresses :
    Range.wellFormed { first := 0x8001, more := [0x8000] } = false := by decide

theorem test_fits_refuses_a_wide_pc :
    Cpu.fits { Cpu.familyReset with pc := 0x10000 } Cfg.atReset = false := by decide

/-- Registers that do not fit, and a `PEND` that is no set. -/
theorem test_signal_state_refuses_each_ill_formed_field :
    SignalState.wellFormed
      { SignalState.familyReset with cpu := { Cpu.familyReset with pc := 0x10000 } } Cfg.atReset =
        false ∧
    SignalState.wellFormed { SignalState.familyReset with pend := [.nmi, .nmi] } Cfg.atReset = false ∧
    SignalState.wellFormed SignalState.familyReset Cfg.atReset = true := by decide

theorem test_cfg_refuses_each_ill_formed_part :
    Cfg.wellFormed
      { Cfg.atReset with initState := { SignalState.familyReset with pend := [.nmi, .nmi] } } = false ∧
    Cfg.wellFormed
      { Cfg.atReset with resetState := { SignalState.familyReset with pend := [.nmi, .nmi] } } =
        false ∧
    Cfg.wellFormed { Cfg.atReset with ranges := [(0, { first := 2, more := [1] })] } = false ∧
    Cfg.wellFormed Cfg.atReset = true := by decide

theorem test_every_instruction_is_well_formed : Instr.wellFormed .mwait = true := by decide

/-! ### Decoding: 95_test_vectors.md section 2.1, S1 -/

theorem test_decode_S1_E1 :
    decode [0b00001111, 0b00000001, 0b11001001] = .ok (.mwait, []) := by decide

theorem test_decode_E2 : decode [0x0F, 0x01, 0xC9, 0x90] = .ok (.mwait, [0x90]) := by decide

theorem test_decode_E3_to_E10 :
    decode [0x0F, 0x01, 0xC8] = .error .notMwait ∧
    decode [0x0F, 0x01, 0xC1] = .error .notMwait ∧
    decode [0x0F, 0x01, 0x49] = .error .notMwait ∧
    decode [0x0F, 0x00, 0xC9] = .error .notMwait ∧
    decode [0x66, 0x0F, 0x01, 0xC9] = .error .startsWithPrefix ∧
    decode [0xF3, 0x0F, 0x01, 0xC9] = .error .startsWithPrefix ∧
    decode [0x48, 0x0F, 0x01, 0xC9] = .error .startsWithPrefix ∧
    decode [0x0F, 0x01] = .error .truncated := by decide

theorem test_table_word : decodeTableWord 24 0x0F01C9 = some .mwait := by decide

/-- The word in the other byte order is not the instruction (the table's byte_order_note). -/
theorem test_table_word_reversed : decodeTableWord 24 0xC9010F = none := by decide

/-! ### States for the tests -/

/-- The range of 95_test_vectors.md section 2.5, cut to its first four addresses. -/
def range4 : Range := { first := 0x8000, more := [0x8001, 0x8002, 0x8003] }

/-- MWAIT at 1000H in protected mode at level 0, the monitor idle: the start of program P1.
`MonitorRange` is fixed at two addresses. -/
def p1 : State :=
  { State.reset with
    cpu := { State.reset.cpu with mode := .prot, pc := 0x1000 }
    mem := [(0x1000, 0x0F), (0x1001, 0x01), (0x1002, 0xC9)]
    text := [0x1000, 0x1001, 0x1002]
    cfg := { Cfg.atReset with ranges := [(0x8000, range4), (0, { first := 0, more := [] })] } }

/-- The same with the monitor armed. -/
def armed : State := { p1 with mon := .armed range4 }

/-- The wait that follows, with hints `h` and extension bit `x` in the registers and in `WCTX`. -/
def waiting (h : Word) (x : Bool) : State :=
  { armed with
    cpu := { armed.cpu with rax := h, rcx := if x then 1 else 0, pc := 0x1003 }
    wait := some { hints := h.setWidth 32, ext0 := x } }

/-- A store of `n + 1` bytes. -/
def storeAt (g : Agent) (a n : Nat) : StoreEvent :=
  { agent := g, addr := a, byte0 := 0xAA, more := List.replicate n 0xAA }

/-- The answer is a next state with the property `p`. -/
def answers (r : Result) (p : State → Bool) : Bool :=
  match r with
  | .next t => p t
  | .fault _ => false
  | .refused _ => false

/-! ### The checks and the outcomes: 95_test_vectors.md section 2.2 -/

/-- The outcomes of the table. -/
inductive Verdict where
  | completes
  | waits (h : Dword) (x : Bool)
  | ud
  | gp0
  | gp

/-- The state a verdict stands for. -/
def expected (v : Verdict) (s : State) : State :=
  match v with
  | .completes => { s with mon := .triggered, cpu := { s.cpu with pc := 0x1003 } }
  | .waits h x =>
    { s with wait := some { hints := h, ext0 := x }, cpu := { s.cpu with pc := 0x1003 } }
  | .ud => { s with trap := some (.exn .ud none 0x1000) }
  | .gp0 => { s with trap := some (.exn .gp (some 0) 0x1000) }
  | .gp => { s with trap := some (.exn .gp none 0x1000) }

/-- One row: MODE, CPL, C01_3, C05_1, RCX, RAX, MON and the outcome. -/
def row (m : Mode) (cpl : Fin 4) (c01 c05 : Bool) (rcx rax : Word) (mon : Monitor) (v : Verdict) :
    Bool :=
  let s : State :=
    { p1 with
      cpu := { p1.cpu with mode := m, cpl := cpl, rcx := rcx, rax := rax }
      mon := mon
      cfg := { p1.cfg with cpuid01Ecx3 := c01, cpuid05Ecx1 := c05 } }
  answers (exec .mwait s) fun t => decide (t = expected v s)

theorem test_vectors_V1_to_V19 :
    row .prot 0 true true 0 0 .idle .completes ∧ row .prot 0 false true 0 0 .idle .ud ∧
    row .prot 3 true true 0 0 .idle .ud ∧ row .prot 1 true true 0 0 .idle .ud ∧
    row .prot 2 true true 0 0 .idle .ud ∧ row .prot 0 true true 2 0 .idle .gp0 ∧
    row .prot 0 true true 0x80000000 0 .idle .gp0 ∧ row .prot 0 true true 0xFFFFFFFF 0 .idle .gp0 ∧
    row .prot 0 true false 1 0 .idle .gp0 ∧ row .prot 0 true true 1 0 .idle .completes ∧
    row .prot 0 true true 3 0 .idle .gp0 ∧ row .prot 3 true true 2 0 .idle .ud ∧
    row .prot 0 false true 2 0 .idle .ud ∧ row .real 3 true true 0 0 .idle .completes ∧
    row .real 0 false true 0 0 .idle .ud ∧ row .real 0 true true 2 0 .idle .gp ∧
    row .real 0 true false 1 0 .idle .gp ∧ row .v86 0 true true 0 0 .idle .ud ∧
    row .v86 0 true true 2 0 .idle .ud := by decide

theorem test_vectors_V20_to_V35 :
    row .compat 0 true true 0x100000000 0 .idle .completes ∧
    row .compat 0 true true 0x100000002 0 .idle .gp0 ∧ row .compat 3 true true 0 0 .idle .ud ∧
    row .long64 0 true true 0 0 .idle .completes ∧
    row .long64 0 true true 0x100000000 0 .idle .gp0 ∧
    row .long64 0 true true 0x8000000000000000 0 .idle .gp0 ∧
    row .long64 0 true true 1 0 .idle .completes ∧ row .long64 0 true false 1 0 .idle .gp0 ∧
    row .long64 3 true true 0 0 .idle .ud ∧ row .long64 0 false true 0 0 .idle .ud ∧
    row .long64 0 true true 0 0xFFFFFFFFFFFFFFFF .idle .completes ∧
    row .prot 0 true true 0 0x1000 .idle .completes ∧
    row .prot 0 true true 0 0 (.armed range4) (.waits 0 false) ∧
    row .prot 0 true true 1 0x20 (.armed range4) (.waits 0x20 true) ∧
    row .prot 0 true true 2 0 (.armed range4) .gp0 ∧
    row .prot 0 true true 0 0 .triggered .completes := by decide

/-! ### The hints: 95_test_vectors.md section 2.3 -/

/-- One row: EAX, SubCState, the number of the target C-state, whether reserved bits are set, and
`AllStoresWake` with `CPUID_05H_ECX_0` 1 and 0. -/
def hint (h : Dword) (sub target : Nat) (reserved on off : Bool) : Bool :=
  subCState h == sub && targetCState h == target && (hintReserved h != 0) == reserved &&
  allStoresWake { Cfg.atReset with cpuid05Ecx0 := true } h == on &&
  allStoresWake { Cfg.atReset with cpuid05Ecx0 := false } h == off

theorem test_hints_H1_to_H10 :
    hint 0x00 0 1 false true true ∧ hint 0x10 0 2 false false false ∧
    hint 0x20 0 3 false false false ∧ hint 0xE0 0 15 false false false ∧
    hint 0xF0 0 0 false true false ∧ hint 0x01 1 1 false true false ∧
    hint 0x0F 15 1 false true false ∧ hint 0x100 0 1 true false false ∧
    hint 0xFFFFFFFF 15 0 true false false ∧ hint 0x21 1 3 false false false := by decide

/-- 95_test_vectors.md S5: `_mm_mwait(1, 0x10)` has `ECX = 1` and `EAX = 0x10`. -/
theorem test_intrinsic_S5 :
    ecx (intrinsicArgs 1 0x10 p1.cpu) = 1 ∧ eax (intrinsicArgs 1 0x10 p1.cpu) = 0x10 := by decide

/-! ### One step or one turn: 95_test_vectors.md sections 2.2, 2.5, 3 -/

/-- P1: the whole step, fetch included. -/
theorem test_step_P1 :
    answers (step { p1 with script := [.self 0] }) fun t =>
      t.cpu.pc == 0x1003 && t.mon == .triggered && t.wait == none && t.mem == p1.mem := by decide

/-- The instruction-pointer corner with `IPW(LONG64) = 64`: the highest `pc` that fits wraps to 0,
one more is refused. -/
theorem test_wrap_at_the_top :
    answers (step (State.withFetchWord
      { p1 with cpu := { p1.cpu with mode := .long64, pc := 0xFFFFFFFFFFFFFFFD } } 24 0x0F01C9))
        (fun t => t.cpu.pc == 0) ∧
    step (State.withFetchWord
      { p1 with cpu := { p1.cpu with mode := .long64, pc := 0xFFFFFFFFFFFFFFFE } } 24 0x0F01C9) =
        .refused .straddlesTop := by
  constructor
  · decide
  · rfl

/-- W3 and W4: bytes 7FFEH to 8001H overlap, bytes 7FFCH to 7FFFH do not. -/
theorem test_overlap_W3_W4 :
    answers ((waiting 0 false).runTurn (.store (storeAt .proc 0x7FFE 3) false))
      (fun t => t.mon == .triggered && t.wait.isSome) ∧
    answers ((waiting 0 false).runTurn (.store (storeAt .proc 0x7FFC 3) false))
      (fun t => t.mon == .armed range4) := by decide

/-- W5 and W6: a device store in target C2 may leave the monitor armed, in C1 it must not. -/
theorem test_device_store_W5_W6 :
    answers ((waiting 0x10 false).runTurn (.store (storeAt .nonproc 0x8000 0) false))
      (fun t => t.mon == .armed range4) ∧
    answers ((waiting 0 false).runTurn (.store (storeAt .nonproc 0x8000 0) false))
      (fun t => t.mon == .triggered) := by decide

/-- W9 and W10: a masked interrupt is a duty only with `ECX[0] = 1`. -/
theorem test_masked_interrupt_W9_W10 :
    State.duty { waiting 0 false with pend := [.extint 7], unmasked := [.extint 7] } = false ∧
    State.duty { waiting 0 true with pend := [.extint 7], unmasked := [.extint 7] } = true := by
  decide

/-- W8: the deliverable interrupt is handed over with the address after MWAIT. -/
theorem test_delivery_W8 :
    answers (State.runTurn
      { p1 with
        cpu := { p1.cpu with pc := 0x1003, intFlag := true }
        pend := [.extint 7], unmasked := [.extint 7] } (.self 0))
      (fun t => t.trap == some (.event (.extint 7) 0x1003) && t.pend == []) := by decide

/-- W13: RESET# leaves the state of `State.reset`. -/
theorem test_reset_signal_W13 :
    State.resetSignal { State.reset with mon := .triggered, pend := [.reset] } = State.reset := by
  decide

/-- 60_exceptions.md R123 and R128: with RESET# and an NMI pending, P may take either or execute
MWAIT (40_mwait.md R80). -/
theorem test_choice_with_a_signal_pending :
    let s : State := { p1 with pend := [.nmi, .reset], unmasked := [.nmi] }
    answers (s.runTurn (.self 0)) (fun t => t.trap == some (.event .nmi 0x1000)) ∧
    answers (s.runTurn (.self 1)) (fun t => t.cpu == Cpu.familyReset && t.pend == []) ∧
    answers (s.runTurn (.self 2)) (fun t => t.cpu.pc == 0x1003 && t.pend == s.pend) := by decide

/-- `Arm` takes the range the configuration fixes for the address (10_state.md R22). -/
theorem test_arm_takes_the_range_of_the_address :
    answers (p1.runTurn (.arm 0x8000)) (fun t => t.mon == .armed range4) := by decide

/-- From reset with nothing placed no program text is admitted (log 28). -/
theorem test_reset_with_nothing_placed : State.reset.execNext = .refused .endOfText := by rfl

/-! ### Witnesses: for every statement with hypotheses, a state and operands that meet them -/

/-- P's turn comes next, with choice `k`. -/
def selfNext (k : Nat) (s : State) : State := { s with script := [.self k] }

/-- The machine at 1000H in mode `m`, at level `l`, with `rcx` in RCX. -/
def inMode (m : Mode) (l : Fin 4) (rcx : Word) : State :=
  { p1 with cpu := { p1.cpu with mode := m, cpl := l, rcx := rcx } }

theorem allowed (cpu : Cpu) (c : Cfg) (h : mwaitCheck cpu c = none) : MwaitAllowed cpu c :=
  (mwaitCheck_none_iff cpu c).mp h

theorem not_allowed (cpu : Cpu) (c : Cfg) (h : mwaitCheck cpu c ≠ none) : ¬ MwaitAllowed cpu c :=
  fun ha => h ((mwaitCheck_none_iff cpu c).mpr ha)

theorem keeps_text (st : StoreEvent) (s : State) (h : st.addrs.any s.text.contains = false) :
    ¬ overlapsText st s := fun ho => by simp [(s.overlapsText_iff st).mpr ho] at h

theorem overlap (st : StoreEvent) (r : Range) (h : st.overlaps r = true) : overlapsRange st r :=
  (st.overlaps_iff r).mp h

theorem executes (k : Nat) (s : State) (hw : s.wait = none) (hp : s.pend = []) (ht : s.trap = none)
    (hk : k = 0) : (selfNext k s).turnExecutes := by
  subst hk
  exact ⟨hw, ht, 0, rfl, by simp [State.takeable, selfNext, hp]⟩

theorem witness_DecodeInvertsEncode : Instr.wellFormed .mwait = true := by decide

/-- Both clauses, the first at the last `pc` below the straddling zone. -/
theorem witness_FetchRunsMwaitOrRefuses :
    (∃ s : State, s.cpu.pc + 3 = 2 ^ s.cfg.ipw s.cpu.mode ∧ s.mwaitAt s.cpu.pc) ∧
    ∃ s : State, s.cpu.pc + 3 ≤ 2 ^ s.cfg.ipw s.cpu.mode ∧ ¬ s.mwaitAt s.cpu.pc :=
  ⟨⟨State.withFetchWord { p1 with cpu := { p1.cpu with pc := 0xFFFFFFFD } } 24 0x0F01C9,
      by decide, by unfold State.mwaitAt; decide⟩,
    ⟨State.reset, by decide, by unfold State.mwaitAt; decide⟩⟩

/-- P1 in real-address mode, where `IPW` is 16. -/
def realAt (pc : Nat) : State := { p1 with cpu := { p1.cpu with mode := .real, pc := pc } }

theorem realAt_pc (a : Nat) : (selfNext 0 (realAt a)).cpu.pc = a := rfl

theorem realAt_ipw (a : Nat) :
    (selfNext 0 (realAt a)).cfg.ipw (selfNext 0 (realAt a)).cpu.mode = 16 := rfl

theorem realAt_executes (a : Nat) : (selfNext 0 (realAt a)).turnExecutes :=
  executes 0 (realAt a) rfl rfl rfl rfl

/-- Both sides of the equivalence, at the boundary. -/
theorem witness_StraddlingTheTopIsRefused :
    (∃ s : State, s.turnExecutes ∧ 2 ^ s.cfg.ipw s.cpu.mode + 1 = s.cpu.pc + 3) ∧
    ∃ s : State, s.turnExecutes ∧ 2 ^ s.cfg.ipw s.cpu.mode = s.cpu.pc + 3 := by
  refine ⟨⟨_, realAt_executes 0xFFFE, ?_⟩, ⟨_, realAt_executes 0xFFFD, ?_⟩⟩
  · norm_num [realAt_ipw, realAt_pc]
  · norm_num [realAt_ipw, realAt_pc]

theorem witness_StepRunsTheDecodedInstruction :
    ∃ (s : State) (rest : List Byte), s.turnExecutes ∧ s.cpu.pc + 3 ≤ 2 ^ s.cfg.ipw s.cpu.mode ∧
      decode (s.textBytes s.cpu.pc 3) = .ok (.mwait, rest) :=
  ⟨selfNext 0 p1, [], executes 0 p1 rfl rfl rfl rfl, by decide, by decide⟩

theorem witness_MwaitInV86RaisesUd :
    (inMode .v86 3 0).mayExecute ∧ (inMode .v86 3 0).cpu.mode = .v86 := by decide

theorem witness_MwaitWithoutTheFeatureRaisesUd :
    let s : State := { p1 with cfg := { p1.cfg with cpuid01Ecx3 := false } }
    s.mayExecute ∧ s.cpu.mode ∈ [Mode.real, .prot, .compat, .long64] ∧
      s.cfg.cpuid01Ecx3 = false := by decide

theorem witness_MwaitAtOtherPrivilegeRaisesUd :
    ((inMode .prot 1 0).mayExecute ∧ (inMode .prot 1 0).cpu.cpl ≠ 0) ∧
    (inMode .real 3 0).mayExecute ∧ MwaitAllowed (inMode .real 3 0).cpu (inMode .real 3 0).cfg ∧
    (inMode .real 3 2).mayExecute ∧
    ¬ MwaitAllowed (inMode .real 3 2).cpu (inMode .real 3 2).cfg :=
  ⟨by decide, by decide, allowed _ _ (by decide), by decide, not_allowed _ _ (by decide)⟩

/-- The lowest and the highest reserved bit of each width; bit 32 outside 64-bit mode. -/
theorem witness_MwaitReservedExtensionBitsRaiseGp :
    (∀ v ∈ [(0x2 : Word), 0x80000000], (inMode .prot 0 v).mayExecute ∧
      reservedBitsSet (inMode .prot 0 v).cpu) ∧
    (∀ v ∈ [(0x2 : Word), 0x8000000000000000], (inMode .long64 0 v).mayExecute ∧
      reservedBitsSet (inMode .long64 0 v).cpu) ∧
    (inMode .prot 0 0x100000001).mayExecute ∧
    ¬ reservedBitsSet (inMode .prot 0 0x100000001).cpu ∧
    (inMode .prot 0 0x100000001).cfg.cpuid05Ecx1 = true := by
  simp only [← reservedSet_iff, List.forall_mem_cons, List.not_mem_nil, false_imp_iff, implies_true,
    and_true]
  refine ⟨⟨⟨?_, ?_⟩, ?_, ?_⟩, ⟨⟨?_, ?_⟩, ?_, ?_⟩, ?_, ?_, ?_⟩ <;> decide

theorem witness_MwaitUnsupportedExtensionRaisesGp :
    let s : State := { inMode .long64 0 1 with cfg := { p1.cfg with cpuid05Ecx1 := false } }
    s.mayExecute ∧ s.cpu.mode ≠ .v86 ∧ s.cfg.cpuid01Ecx3 = true ∧
      (s.cpu.mode = .real ∨ s.cpu.cpl = 0) ∧
      s.cpu.rcx.getLsbD 0 = true ∧ s.cfg.cpuid05Ecx1 = false := by decide

/-- Allowed; #UD with a #GP condition beside it (V12); #GP alone. -/
theorem witness_MwaitReportsUdBeforeGp :
    p1.mayExecute ∧ MwaitAllowed p1.cpu p1.cfg ∧
    (inMode .prot 3 2).mayExecute ∧ (inMode .prot 3 2).cpu.cpl ≠ 0 ∧
    ¬ MwaitAllowed (inMode .prot 3 2).cpu (inMode .prot 3 2).cfg ∧
    (inMode .prot 0 2).mayExecute ∧ (inMode .prot 0 2).cpu.cpl = 0 ∧
    ¬ MwaitAllowed (inMode .prot 0 2).cpu (inMode .prot 0 2).cfg :=
  ⟨by decide, allowed _ _ (by decide), by decide, by decide, not_allowed _ _ (by decide), by decide,
    by decide, not_allowed _ _ (by decide)⟩

/-- P1 inside the SMI handler. -/
def inSmiHandler : State := { p1 with frames := [{ record := .event .smi 0x2000, mode := .prot }] }

theorem witness_MwaitStopsExactlyOutsideItsPlace :
    (waiting 0 false).wait.isSome ∧
    (p1.wait = none ∧ ({ p1 with cfg := { p1.cfg with guest := true } } : State).cfg.guest = true) ∧
    (∃ f ∈ inSmiHandler.frames, ∃ a, f.record = .event .smi a) ∧
    ¬ ∃ f ∈ p1.frames, ∃ a, f.record = .event .smi a :=
  ⟨by decide, by decide, ⟨_, List.mem_singleton.mpr rfl, _, rfl⟩, by rintro ⟨f, hf, _⟩; cases hf⟩

theorem witness_MwaitNotArmedCompletes :
    p1.mayExecute ∧ MwaitAllowed p1.cpu p1.cfg ∧ (∀ r, p1.mon ≠ .armed r) ∧
    (inMode .prot 3 0).mayExecute ∧ ¬ MwaitAllowed (inMode .prot 3 0).cpu (inMode .prot 3 0).cfg ∧
    ∀ r, (inMode .prot 3 0).mon ≠ .armed r :=
  ⟨by decide, allowed _ _ (by decide), by rintro r ⟨⟩, by decide, not_allowed _ _ (by decide),
    by rintro r ⟨⟩⟩

theorem witness_MwaitArmedEntersTheWait :
    let s : State := { armed with script := [.spurious] }
    s.mayExecute ∧ MwaitAllowed s.cpu s.cfg ∧ s.mon = .armed range4 ∧
      (∃ t, exec .mwait s = .next t) ∧ s.script = .spurious :: [] :=
  ⟨by decide, allowed _ _ (by decide), rfl, ⟨_, rfl⟩, rfl⟩

theorem witness_MwaitFrame : ∃ t, exec .mwait armed = .next t ∧ t.wait.isSome := ⟨_, rfl, rfl⟩

theorem witness_MwaitReadsOnlyHintsFromRax : armed.mayExecute := by decide

theorem witness_MwaitIgnoresUpperRcxOutside64BitMode :
    (inMode .compat 0 0).mayExecute ∧ (inMode .compat 0 0).cpu.mode ≠ .long64 ∧
      (0x100000000 : Word).setWidth 32 = (inMode .compat 0 0).cpu.rcx.setWidth 32 := by decide

theorem witness_WaitingProcessorOnlyExits :
    ∃ s t : State, s.wait.isSome ∧ step s = .next t ∧ t.wait = s.wait :=
  ⟨selfNext 0 (waiting 0 false), _, rfl, rfl, rfl⟩

theorem witness_WaitExitTriggersTheMonitor :
    ∃ s t : State, s.wait.isSome ∧ step s = .next t ∧ t.wait = none :=
  ⟨selfNext 1 (waiting 0 false), _, rfl, rfl, rfl⟩

/-- A triggered monitor, and each of the seven events. -/
theorem witness_UnconditionalEventsEndTheWait :
    (∀ r, ({ waiting 0 false with mon := .triggered } : State).mon ≠ .armed r) ∧
    ∀ e ∈ [Event.nmi, .smi, .db, .mc, .binit, .init, .reset],
      let s : State := selfNext 0 { waiting 0 false with pend := [e] }
      s.wait.isSome ∧ s.script = .self 0 :: [] ∧ e ∈ s.pend := by
  refine ⟨by rintro r ⟨⟩, by decide⟩

theorem witness_DutyIsExactlyTheListedEvents :
    (waiting 0 true).wait = some { hints := 0, ext0 := true } := by decide

theorem witness_ExitIsALibertyInEveryWait :
    let s := fun t : Turn => ({ waiting 0 false with script := [t] } : State)
    (s .spurious).wait.isSome ∧ (s (.self 1)).script = .self 1 :: [] ∧
      (s (.self 0)).owed = false ∧ (s (.self 0)).duty = false := by decide

theorem witness_WaitEndsOnlyOnDuty :
    ∃ s t : State, s.wait.isSome ∧ step s = .next t ∧ t.wait = none :=
  witness_WaitExitTriggersTheMonitor

/-- A duty that is withdrawn before P's turn comes, with a store elsewhere in between. -/
theorem witness_OwedExitHappens :
    let s : State :=
      { waiting 0 false with
        pend := [.nmi], script := [.withdraw .nmi, .store (storeAt .proc 0x9000 0) false] }
    s.wait.isSome ∧ s.duty = true ∧ scriptKeepsText s := by
  refine ⟨by decide, by decide, ?_⟩
  intro t ht st seen e
  subst e
  have : st = storeAt .proc 0x9000 0 := (by simpa using ht : _ ∧ _).1
  subst this
  exact keeps_text _ _ (by decide)

theorem witness_WaitWithoutDutyMayLast :
    let s : State := { waiting 0 false with script := [.self 0, .self 0, .spurious] }
    s.wait.isSome ∧ s.owed = false ∧ s.duty = false ∧
      s.script = List.replicate 2 (.self 0) ++ [.spurious] := by decide

theorem witness_MaskedInterruptIsNoDuty :
    (waiting 0x10 false).wait = some { hints := 0x10, ext0 := false } ∧
      (waiting 0x10 false).cpu.intFlag = false := by decide

/-- MWAIT enters the wait, one of P's turns leaves it, the next ends it. -/
theorem witness_WaitEndsAtTheFollowingInstruction :
    ∃ s t u v : State, exec .mwait s = .next t ∧ t.wait.isSome ∧
      (∀ j ≤ 1, ∀ x, runSteps j t = .next x → x.wait.isSome) ∧ runSteps 1 t = .next u ∧
      step u = .next v ∧ v.wait = none := by
  refine ⟨{ armed with script := [.self 0, .self 1] }, _, _, _, rfl, rfl, ?_, rfl, rfl, rfl⟩
  intro j hj x hx
  rcases Nat.le_one_iff_eq_zero_or_eq_one.mp hj with rfl | rfl <;> cases hx <;> rfl

theorem witness_NoWaitWithoutFreshMonitor :
    ∃ u : State, p1.wait = none ∧ (∀ r, p1.mon ≠ .armed r) ∧
      (∀ r, Turn.arm r ∉ (selfNext 0 p1).script) ∧ runSteps 1 (selfNext 0 p1) = .next u :=
  ⟨_, rfl, by rintro r ⟨⟩, by intro r h; simp [selfNext] at h, rfl⟩

theorem witness_OnlyArmedMwaitEntersTheWait :
    ∃ (s t : State) (w : WaitCtx), s.wait = none ∧ step s = .next t ∧ t.wait = some w :=
  ⟨selfNext 0 armed, _, _, rfl, rfl, rfl⟩

theorem witness_ArmAndArmFail :
    p1.trap = none ∧ p1.wait = none ∧ (waiting 0 false).trap = none ∧
      (waiting 0 false).wait.isSome := by decide

/-- The lowest and the highest byte of the range. -/
theorem witness_OtherProcessorStoreAlwaysTriggers :
    ∀ a ∈ [0x8000, 0x8003], (waiting 0x10 false).mon = .armed range4 ∧
      overlapsRange (storeAt .proc a 0) range4 ∧
      ¬ overlapsText (storeAt .proc a 0) (waiting 0x10 false) := by
  intro a ha
  simp only [List.mem_cons, List.not_mem_nil, or_false] at ha
  rcases ha with rfl | rfl <;> exact ⟨rfl, overlap _ _ (by decide), keeps_text _ _ (by decide)⟩

/-- Not waiting; waiting with hints that wake and hints that need not. -/
theorem witness_NonProcessorStoreTriggersByTheHints :
    armed.mon = .armed range4 ∧ armed.wait = none ∧
    (waiting 0xF0 false).wait = some { hints := 0xF0, ext0 := false } ∧
    (waiting 0x100 false).wait = some { hints := 0x100, ext0 := false } ∧
    overlapsRange (storeAt .nonproc 0x8000 0) range4 ∧
    ¬ overlapsText (storeAt .nonproc 0x8000 0) armed :=
  ⟨rfl, rfl, by decide, by decide, overlap _ _ (by decide), keeps_text _ _ (by decide)⟩

theorem witness_OwnStoreMayTriggerOrNot :
    armed.mon = .armed range4 ∧ armed.wait = none ∧ (waiting 0 false).mon = .armed range4 ∧
    (waiting 0 false).wait.isSome ∧ overlapsRange (storeAt .self 0x8002 4) range4 ∧
    ¬ overlapsText (storeAt .self 0x8002 4) armed :=
  ⟨rfl, rfl, rfl, by decide, overlap _ _ (by decide), keeps_text _ _ (by decide)⟩

theorem witness_StoreFrame :
    ∃ t, armed.runTurn (.store (storeAt .proc 0x7FFE 3) false) = .next t ∧ t.mon = .triggered :=
  ⟨_, rfl, by decide⟩

theorem witness_StoreBeforeMwaitIsNotLost :
    p1.mayExecute ∧ p1.trap = none ∧ MwaitAllowed p1.cpu p1.cfg ∧
    overlapsRange (storeAt .nonproc 0x8000 0) (p1.monitorRange 0x8000) ∧
    ¬ overlapsText (storeAt .nonproc 0x8000 0) p1 :=
  ⟨by decide, rfl, allowed _ _ (by decide), overlap _ _ (by decide), keeps_text _ _ (by decide)⟩

theorem witness_OtherAccessesHaveNoEffect :
    ∃ t, step { waiting 0 false with script := [.access .load .proc 0x8000 4] } = .next t :=
  ⟨_, rfl⟩

/-- A store, an exit, a failed MONITOR, a new MONITOR, a signal. -/
theorem witness_OnlyTheListedStepsDisarm :
    (∃ t, step { armed with script := [.store (storeAt .proc 0x8000 0) false] } = .next t ∧
      t.mon ≠ .armed range4) ∧
    (∃ t, step { waiting 0 false with script := [.spurious] } = .next t ∧ t.mon ≠ .armed range4) ∧
    (∃ t, step { armed with script := [.armFail] } = .next t ∧ t.mon ≠ .armed range4) ∧
    (∃ t, step { armed with script := [.arm 0] } = .next t ∧
      t.mon ≠ .armed range4) ∧
    ∃ t, step (selfNext 0 { armed with pend := [.reset] }) = .next t ∧ t.mon ≠ .armed range4 :=
  ⟨⟨_, rfl, by decide⟩, ⟨_, rfl, by decide⟩, ⟨_, rfl, by decide⟩, ⟨_, rfl, by decide⟩,
    ⟨_, rfl, by decide⟩⟩

theorem witness_OnlyArmArms :
    ∃ t, step { p1 with script := [.arm 0x8000] } = .next t ∧ t.mon = .armed range4 :=
  ⟨_, rfl, rfl⟩

/-- Target C1, C0, and C2 next to it, and C15. -/
theorem witness_AllStoresWakeUpToC1 :
    Cfg.atReset.cpuid05Ecx0 = true ∧
    ∀ h ∈ [(0x00 : Dword), 0x0F, 0x10, 0xEF, 0xF0, 0xFF], h.toNat < 256 :=
  ⟨rfl, by simp⟩

/-- An NMI and a deliverable external interrupt are pending, and behind them RESET#. -/
def withEvents : State :=
  { p1 with
    cpu := { p1.cpu with intFlag := true }
    pend := [.nmi, .extint 7, .reset], unmasked := [.nmi, .extint 7] }

theorem witness_UnmaskedEventMayBeDelivered :
    withEvents.wait = none ∧ withEvents.trap = none ∧ Event.extint 7 ∈ withEvents.pend ∧
    Event.isSignal (.extint 7) = false ∧ Event.extint 7 ∈ withEvents.unmasked ∧
    withEvents.cpu.intFlag = true := by decide

/-- Masked by `IF = 0`, and masked by the platform; and a signal is taken. -/
theorem witness_MaskedInterruptStaysPending :
    (∃ t, step (selfNext 0 { p1 with pend := [.extint 7], unmasked := [.extint 7] }) = .next t) ∧
    p1.cpu.intFlag = false ∧
    (∃ t, step (selfNext 0 { withEvents with unmasked := [.nmi] }) = .next t) ∧
    (∃ t, step (selfNext 1 { withEvents with unmasked := [.nmi] }) = .next t) ∧
    Event.extint 7 ∉ [Event.nmi] :=
  ⟨⟨_, rfl⟩, rfl, ⟨_, rfl⟩, ⟨_, rfl⟩, by decide⟩

/-- #UD, #GP and a delivery. -/
theorem witness_OnlyExceptionsAndDeliveriesAreHandedOver :
    (∃ t r, step (selfNext 0 (inMode .prot 3 0)) = .next t ∧ t.trap = some r) ∧
    (∃ t r, step (selfNext 0 (inMode .prot 0 2)) = .next t ∧ t.trap = some r) ∧
    ∃ t r, step (selfNext 0 withEvents) = .next t ∧ t.trap = some r :=
  ⟨⟨_, _, rfl, rfl⟩, ⟨_, _, rfl, rfl⟩, ⟨_, _, rfl, rfl⟩⟩

theorem witness_TrapEntryLeavesTheMonitor :
    let s : State := { armed with trap := some (.exn .ud none 0x1000) }
    s.wait = none ∧ s.trap = some (.exn .ud none 0x1000) := by decide

/-- An SMI, and an external interrupt with `IF = 1`. -/
theorem witness_HandlerReturnsAfterMwait :
    ∀ e ∈ [Event.smi, .extint 7],
      let s : State :=
        { waiting 0 false with
          cpu := { (waiting 0 false).cpu with intFlag := true }
          pend := [e], unmasked := [e]
          script := [.self 0, .self 0, .self 0, .handlerReturn] }
      s.wait.isSome ∧ s.trap = none ∧ s.pend = [e] ∧ Event.isSignal e = false ∧
        e ∈ s.unmasked ∧ s.cpu.intFlag = true ∧
        s.script = .self 0 :: .self 0 :: .self 0 :: .handlerReturn :: [] := by decide

theorem witness_ResetSignalReplacesTheState :
    let s : State := { armed with pend := [.nmi, .reset] }
    s.wait = none ∧ s.trap = none ∧ s.cfg.wellFormed = true ∧ .reset ∈ s.pend := by decide

theorem witness_InitSignalsReplaceTheState :
    ∀ e ∈ [Event.init, .binit],
      let s : State := { armed with pend := [e] }
      s.wait = none ∧ s.trap = none ∧ s.cfg.wellFormed = true ∧ (e = .init ∨ e = .binit) ∧
        e ∈ s.pend := by decide

theorem witness_ConfigurationNeverChanges : ∃ t, runSteps 1 (selfNext 0 p1) = .next t := ⟨_, rfl⟩

theorem witness_ProgramTextIsFixed :
    (∃ t, runSteps 1 (selfNext 0 p1) = .next t) ∧ overlapsText (storeAt .proc 0xFFF 1) p1 ∧
      p1.wait = none :=
  ⟨⟨_, rfl⟩, (p1.overlapsText_iff _).mp (by decide), rfl⟩

theorem witness_OnlyStoresChangeMemory :
    ∃ t, step (selfNext 0 p1) = .next t ∧
      ∀ st seen, (selfNext 0 p1).nextTurn ≠ .store st seen :=
  ⟨_, rfl, by intro st seen h; cases h⟩

/-- MWAIT, `TrapEntry`, the return from a handler, a signal. -/
theorem witness_OnlyTrapsAndSignalsChangeRegisters :
    (∃ t, step (selfNext 0 p1) = .next t) ∧
    (∃ t, step (selfNext 0 { p1 with trap := some (.exn .ud none 0x1000) }) = .next t) ∧
    (∃ t, step { inSmiHandler with script := [.handlerReturn] } = .next t) ∧
    ∃ t, step (selfNext 0 { p1 with pend := [.init] }) = .next t :=
  ⟨⟨_, rfl⟩, ⟨_, rfl⟩, ⟨_, rfl⟩, ⟨_, rfl⟩⟩

/-- A legal state that waits, and a step from it. -/
theorem witness_EveryStepKeepsTheInvariant :
    (waiting 0 true).Inv ∧ ∃ t, step { waiting 0 true with script := [.spurious] } = .next t :=
  ⟨{ memCanonical := by decide, pcFits := by decide, pendNodup := by decide
     rangeAscending := by rintro r ⟨⟩; decide
     cfgLegal := by decide
     trapFits := by rintro e a ⟨⟩
     framesFit := by intro f hf; cases hf
     waitAllowed := fun _ => allowed _ _ (by decide)
     waitContext := by rintro w ⟨⟩; decide
     waitMonitor := fun _ => by decide
     waitPlace := fun _ => by decide
     waitNoTrap := fun _ => rfl
     owedWaits := fun _ => rfl },
    ⟨_, rfl⟩⟩

theorem witness_PlacedInstructionRunsNext :
    armed.cfg.guest = false ∧ armed.inSmm = false ∧
      armed.cpu.pc + 3 ≤ 2 ^ armed.cfg.ipw armed.cpu.mode ∧ MwaitAllowed armed.cpu armed.cfg :=
  ⟨rfl, rfl, by decide, allowed _ _ (by decide)⟩

theorem witness_MemoryReadAfterWrite : p1.mem.wf = true := by decide

/-- An entry, a return, a signal. -/
theorem witness_HandlersChangeOnlyByEntryReturnAndSignals :
    (∃ t, step (selfNext 0 { p1 with trap := some (.exn .ud none 0x1000) }) = .next t ∧
      t.frames ≠ p1.frames) ∧
    (∃ t, step { inSmiHandler with script := [.handlerReturn] } = .next t ∧
      t.frames ≠ inSmiHandler.frames) ∧
    ∃ t, step (selfNext 0 { inSmiHandler with pend := [.init] }) = .next t ∧
      t.frames ≠ inSmiHandler.frames :=
  ⟨⟨_, rfl, fun h => nomatch h⟩, ⟨_, rfl, fun h => nomatch h⟩,
    ⟨_, rfl, fun h => nomatch h⟩⟩

theorem witness_MaskingChangesOnlyByThePlatformAndSignals :
    (∃ t, step { p1 with script := [.setUnmasked [.nmi]] } = .next t ∧ t.unmasked ≠ p1.unmasked) ∧
    ∃ t, step (selfNext 2 withEvents) = .next t ∧ t.unmasked ≠ withEvents.unmasked :=
  ⟨⟨_, rfl, by decide⟩, ⟨_, rfl, by decide⟩⟩

end Sys2Proof.Tests
end

/-! PROOFS. The statements of the family 10_state.md: the legal states, what a waiting processor may
do, who arms the monitor, what changes the registers and the configuration, and what MWAIT reads of
its operands. Every statement about a step goes by cases on `Moves`. -/

namespace Sys2Proof.Machine

variable {s t u : State}

/-! ### The legal states -/

theorem State.Inv.owed_of_not_waiting (h : s.Inv) (hw : s.wait = none) : s.owed = false :=
  Bool.eq_false_iff.mpr fun ho => by simpa [hw] using h.owedWaits ho

/-- The clauses about the wait hold of every state without one. -/
theorem State.Inv.of_not_waiting (hw : s.wait = none) (ho : s.owed = false)
    (memCanonical : s.mem.wf = true) (pcFits : s.cpu.pc < 2 ^ s.cfg.ipw s.cpu.mode)
    (pendNodup : s.pend.Nodup) (rangeAscending : ∀ r, s.mon = .armed r → r.wellFormed = true)
    (cfgLegal : s.cfg.wellFormed = true)
    (trapFits : ∀ e a, s.trap = some (.event e a) → a < 2 ^ s.cfg.ipw s.cpu.mode)
    (framesFit : ∀ f ∈ s.frames, ∀ e a, f.record = .event e a → a < 2 ^ s.cfg.ipw f.mode) :
    s.Inv where
  memCanonical := memCanonical
  pcFits := pcFits
  pendNodup := pendNodup
  rangeAscending := rangeAscending
  cfgLegal := cfgLegal
  trapFits := trapFits
  framesFit := framesFit
  waitAllowed := by simp [hw]
  waitContext := by simp [hw]
  waitMonitor := by simp [hw]
  waitPlace := by simp [hw]
  waitNoTrap := by simp [hw]
  owedWaits := by simp [ho]

theorem State.Inv.tick (h : s.Inv) : s.tick.Inv :=
  { h with owedWaits := by simp +contextual }

theorem State.Inv.waitExit (h : s.Inv) : s.waitExit.Inv :=
  .of_not_waiting rfl rfl h.memCanonical h.pcFits h.pendNodup nofun h.cfgLegal h.trapFits
    h.framesFit

theorem State.Inv.setPend (h : s.Inv) {l : List Event} (hl : l.Nodup) : (s.setPend l).Inv :=
  { h with pendNodup := hl }

theorem State.Inv.setUnmasked (h : s.Inv) (l : List Event) : (s.setUnmasked l).Inv :=
  { h with }

theorem State.Inv.raiseEvent (h : s.Inv) (e : Event) : (s.raiseEvent e).Inv := by
  refine h.setPend ?_
  split
  · exact h.pendNodup
  · next he => exact List.concat_eq_append ▸ h.pendNodup.concat (by simpa using he)

theorem State.Inv.dropEvent (h : s.Inv) (e : Event) : (s.dropEvent e).Inv :=
  h.setPend (h.pendNodup.filter _)

/-- A record whose address, if an event's, is `pc` may be handed over where P does not wait. -/
theorem State.Inv.handOver (h : s.Inv) (hw : s.wait = none) {r : TrapRecord}
    (hr : ∀ e a, r = .event e a → a = s.cpu.pc) : (s.handOver r).Inv :=
  { h with
    trapFits := fun e a ha => hr e a (Option.some.inj ha) ▸ h.pcFits
    waitNoTrap := fun hs => by simp [State.handOver, hw] at hs }

theorem State.Inv.deliver (h : s.Inv) (hw : s.wait = none) (e : Event) : (s.deliver e).Inv :=
  (h.dropEvent e).handOver hw (by simp [State.dropEvent])

theorem State.Inv.raiseExn (h : s.Inv) (hw : s.wait = none) (x : Exn) : (s.raiseExn x).Inv :=
  h.handOver hw nofun

theorem State.Inv.trapEntry (h : s.Inv) (hw : s.wait = none) {r : TrapRecord}
    (hr : s.trap = some r) : (s.trapEntry r).Inv := by
  refine .of_not_waiting hw (h.owed_of_not_waiting hw) h.memCanonical (Cfg.fit_pc_lt _ _)
    h.pendNodup h.rangeAscending h.cfgLegal nofun fun f hf e a ha => ?_
  rcases List.mem_cons.mp hf with rfl | hf
  · exact h.trapFits e a (hr.trans (congrArg some ha))
  · exact h.framesFit f hf e a ha

theorem State.Inv.reinit_signal (h : s.Inv) (e : Event) {m : Monitor} (hm : ∀ r, m ≠ .armed r) :
    (s.reinit (s.signalState e) m).Inv :=
  .of_not_waiting rfl rfl h.memCanonical (Cfg.fit_pc_lt _ _)
    (s.signalState_wellFormed h.cfgLegal e).2 (fun r hr => absurd hr (hm r)) h.cfgLegal nofun nofun

/-- The registers after a return fit, when the address the frame holds does. -/
theorem returnCpu_pc_lt (c : Cfg) (f : Frame) (cpu : Cpu) (draw : Nat)
    (hf : ∀ e a, f.record = .event e a → a < 2 ^ c.ipw f.mode) :
    (returnCpu c f cpu draw).pc < 2 ^ c.ipw (returnCpu c f cpu draw).mode := by
  unfold returnCpu
  split
  · next e a hr => exact hf e a hr
  · exact Cfg.fit_pc_lt _ _

theorem State.Inv.returnFromHandler (h : s.Inv) (hw : s.wait = none) (ht : s.trap = none)
    {f : Frame} {fs : List Frame} (hf : s.frames = f :: fs) : s.returnFromHandler.Inv := by
  have fits := h.framesFit
  rw [hf, List.forall_mem_cons] at fits
  rw [s.returnFromHandler_cons f fs hf]
  exact .of_not_waiting hw (h.owed_of_not_waiting hw) h.memCanonical
    (returnCpu_pc_lt _ _ _ _ fits.1) h.pendNodup h.rangeAscending h.cfgLegal
    (fun e a ha => by simp [ht] at ha) fits.2

/-- Any monitor is legal whose armed range is a set of addresses and which is not idle in a wait. -/
theorem State.Inv.setMon (h : s.Inv) {m : Monitor} (hr : ∀ r, m = .armed r → r.wellFormed = true)
    (hi : s.wait.isSome → m ≠ .idle) : (s.setMon m).Inv :=
  { h with rangeAscending := hr, waitMonitor := hi }

theorem State.Inv.arm (h : s.Inv) (a : Nat) : (s.arm a).Inv :=
  h.setMon (fun _ hr => Monitor.armed.inj hr ▸ s.monitorRange_wellFormed h.cfgLegal a) nofun

theorem State.Inv.armFail (h : s.Inv) (hw : s.wait = none) : s.armFail.Inv :=
  h.setMon nofun (by simp [hw])

theorem State.Inv.setMem (h : s.Inv) {m : Memory} (hm : m.wf = true) : (s.setMem m).Inv :=
  { h with memCanonical := hm }

theorem State.Inv.storeEffect (h : s.Inv) (st : StoreEvent) (seen : Bool) :
    (s.storeEffect st seen).Inv := by
  have hmem := Memory.writeBytes_wf s.mem st.addr st.bytes h.memCanonical
  unfold State.storeEffect
  split
  · exact (h.setMon (by simp) (by simp)).setMem hmem
  · exact h.setMem hmem

theorem State.Inv.completeMwait (h : s.Inv) (hw : s.wait = none) (ht : s.trap = none) :
    s.completeMwait.Inv :=
  .of_not_waiting hw (h.owed_of_not_waiting hw) h.memCanonical s.pcAfter_lt h.pendNodup nofun
    h.cfgLegal (fun e a ha => by simp [State.completeMwait_eq, ht] at ha) h.framesFit

/-- The checks of MWAIT do not read `pc`. -/
theorem MwaitAllowed.with_pc {cpu : Cpu} {c : Cfg} (h : MwaitAllowed cpu c) (n : Nat) :
    MwaitAllowed { cpu with pc := n } c :=
  { h with }

/-- What MWAIT checked, and where it may execute, is what the clauses about the wait ask. -/
theorem State.Inv.enterWait (h : s.Inv) (hx : s.mayExecute) (ht : s.trap = none)
    (ha : MwaitAllowed s.cpu s.cfg) {r : Range} (hr : s.mon = .armed r) : s.enterWait.Inv := by
  obtain ⟨-, hguest, hsmm⟩ := hx
  exact { h with
    pcFits := s.pcAfter_lt
    waitAllowed := fun _ => ha.with_pc _
    waitContext := by rintro w ⟨⟩; exact ⟨eax_eq s.cpu, ext0_eq s.cpu⟩
    waitMonitor := fun _ hi => by simp [State.enterWait_eq, hr] at hi
    waitPlace := fun _ => ⟨hguest, hsmm⟩
    waitNoTrap := fun _ => ht
    owedWaits := fun _ => rfl }

theorem State.Inv.exec_mwait (h : s.Inv) (ht : s.trap = none) (hx : exec .mwait s = .next t) :
    t.Inv := by
  obtain ⟨hm, ⟨x, -, rfl⟩ | ⟨-, -, rfl⟩ | ⟨ha, ⟨r, hr⟩, rfl⟩⟩ := exec_mwait_next s t hx
  · exact h.raiseExn hm.1 x
  · exact h.completeMwait hm.1 ht
  · exact h.enterWait hm ht ha hr

/-- Every turn keeps the legal states. -/
theorem Moves.inv {tn : Turn} (hm : Moves s tn u) (h : s.Inv) : u.Inv := by
  cases hm with
  | waitExit | spurious => exact h.waitExit
  | waitStay | pass => exact h
  | trapEntry _ r hw hr => exact h.trapEntry hw hr
  | signal _ e m _ _ _ _ harm => exact h.reinit_signal e harm
  | deliver _ e hw => exact h.deliver hw e
  | execute _ _ ht _ _ hx => exact h.exec_mwait ht hx
  | arm a => exact h.arm a
  | armFail hw => exact h.armFail hw
  | handlerReturn f fs hw ht hf => exact h.returnFromHandler hw ht hf
  | store st seen => exact h.storeEffect st seen
  | raise e => exact h.raiseEvent e
  | withdraw e => exact h.dropEvent e
  | setUnmasked l => exact h.setUnmasked l

/-- Settles O54: the tick keeps the invariant, and so does everything a turn can do. -/
theorem everyStepKeepsTheInvariant : Obligations.EveryStepKeepsTheInvariant := by
  intro s t h hs
  obtain ⟨_, -, hm⟩ := step_moves hs
  exact hm.inv h.tick

/-- Settles O55. -/
theorem resetHasTheInvariant : Obligations.ResetHasTheInvariant :=
  .of_not_waiting rfl rfl Memory.wf_nil (by decide) List.nodup_nil nofun (by decide) nofun nofun

/-! ### Executing at `pc` -/

/-- MWAIT is refused for the place it runs in, never for its bytes. -/
theorem exec_mwait_refused {r : Refusal} (h : exec .mwait s = .refused r) :
    r = .inGuest ∨ r = .inSystemManagementMode := by
  rw [exec_mwait, execMwait] at h
  split_ifs at h
  · cases h; exact .inl rfl
  · cases h; exact .inr rfl
  · split at h <;> cases h

theorem State.fetch_straddles (h : 2 ^ s.cfg.ipw s.cpu.mode < s.cpu.pc + 3) :
    s.fetch = .error .straddlesTop := by
  rw [State.fetch, if_pos (by simpa [maxLength] using h)]

theorem State.execNext_straddles_iff :
    s.execNext = .refused .straddlesTop ↔ 2 ^ s.cfg.ipw s.cpu.mode < s.cpu.pc + 3 := by
  constructor
  · intro h
    unfold State.execNext at h
    split at h
    · next i _ =>
      cases i
      simpa using exec_mwait_refused h
    · next r hr =>
      cases h
      simpa using s.fetch_error _ hr
  · intro h
    simp [State.execNext, State.fetch_straddles h]

/-- Settles O5: the fetch tests the top before it reads a byte, and MWAIT itself never refuses by
that name. -/
theorem straddlingTheTopIsRefused : Obligations.StraddlingTheTopIsRefused := by
  intro s hx
  rw [step_of_turnExecutes hx]
  exact State.execNext_straddles_iff

/-- Settles O6: what decodes is MWAIT's bytes at `pc`, and the tick leaves program text and
registers. -/
theorem stepRunsTheDecodedInstruction : Obligations.StepRunsTheDecodedInstruction := by
  intro s i rest hx hle hd
  obtain ⟨rfl, hb⟩ := (decode_ok_iff _ _ _).mp hd
  have hat : s.ticked.mwaitAt s.ticked.cpu.pc := ((s.textBytes_eq_mwait_iff _ _).mp hb).2
  rw [step_of_turnExecutes hx]
  exact s.ticked.execNext_of_mwaitAt hle hat

/-! ### What MWAIT reads of its operands -/

/-- The state with the registers of `c` but for `pc`, and with what a wait has recorded taken from
them: where the outcome of MWAIT depends on its operands. -/
def State.withOperands (s : State) (c : Cpu) : State :=
  { s with
    cpu := { c with pc := s.cpu.pc },
    wait := s.wait.map fun _ => { hints := eax c, ext0 := ext0 c } }

section
variable {c : Cpu} (hw : s.wait = none) (hpc : c.pc = s.cpu.pc) (hmode : c.mode = s.cpu.mode)
include hw hpc hmode

theorem State.raiseExn_setCpu (x : Exn) :
    (s.setCpu c).raiseExn x = (s.raiseExn x).withOperands c := by
  obtain ⟨⟩ := c
  simp_all [State.raiseExn_eq, State.handedExn, State.withOperands, State.setCpu]

theorem mwaitOperate_setCpu : mwaitOperate (s.setCpu c) = (mwaitOperate s).withOperands c := by
  have hafter : (s.setCpu c).pcAfter = s.pcAfter := by simp [State.pcAfter, hpc, hmode]
  by_cases hr : ∃ r, s.mon = .armed r
  · obtain ⟨r, hr⟩ := hr
    rw [mwaitOperate_armed s r hr, mwaitOperate_armed (s.setCpu c) r hr, State.enterWait_eq,
      State.enterWait_eq, hafter]
    rfl
  · have hr : ∀ r, s.mon ≠ .armed r := not_exists.mp hr
    rw [mwaitOperate_not_armed s hr, mwaitOperate_not_armed (s.setCpu c) hr,
      State.completeMwait_eq, State.completeMwait_eq, hafter]
    simp [State.withOperands, State.setCpu, hw]

end

/-- MWAIT has one outcome, but for `withOperands`, with all registers of the same `pc` and mode for
which the checks answer the same. -/
theorem exec_mwait_setCpu (hx : s.mayExecute) :
    ∃ t : State, ∀ c : Cpu, c.pc = s.cpu.pc → c.mode = s.cpu.mode →
      mwaitCheck c s.cfg = mwaitCheck s.cpu s.cfg →
      exec .mwait (s.setCpu c) = .next (t.withOperands c) := by
  cases hs : mwaitCheck s.cpu s.cfg with
  | some x =>
    refine ⟨s.raiseExn x, fun c hpc hmode hc => ?_⟩
    rw [exec_mwait_raises (s.setCpu c) hx hc, State.raiseExn_setCpu hx.1 hpc hmode]
  | none =>
    refine ⟨mwaitOperate s, fun c hpc hmode hc => ?_⟩
    rw [exec_mwait_operates (s.setCpu c) hx ((mwaitCheck_none_iff _ _).mp hc),
      mwaitOperate_setCpu hx.1 hpc hmode]

/-- Settles O17: no check reads RAX, and the wait records EAX as the hints. -/
theorem mwaitReadsOnlyHintsFromRax : Obligations.MwaitReadsOnlyHintsFromRax := by
  intro s v hx
  obtain ⟨t, ht⟩ := exec_mwait_setCpu hx
  refine ⟨t.withOperands s.cpu, ht s.cpu rfl rfl rfl, ?_⟩
  rw [ht { s.cpu with rax := v } rfl rfl rfl]
  simp [State.withOperands, Function.comp_def, eax_eq, ext0_eq]

/-- Outside 64-bit mode the checks read ECX of the extensions register and nothing above it. -/
theorem mwaitCheck_congr_ecx {c d : Cpu} (cfg : Cfg) (hx : ecx c = ecx d) (hm : c.mode = d.mode)
    (hl : d.mode ≠ .long64) (hp : c.cpl = d.cpl) :
    mwaitCheck c cfg = mwaitCheck d cfg := by
  have hext : ext0 c = ext0 d := by rw [ext0, ext0, hx]
  have hres : reservedSet c = reservedSet d := by
    unfold reservedSet
    rw [hm]
    split
    · contradiction
    all_goals rw [hx]
  unfold mwaitCheck
  rw [hm, hp, hres, hext]

/-- Settles O18: outside 64-bit mode the checks and the wait read ECX only. -/
theorem mwaitIgnoresUpperRcxOutside64BitMode :
    Obligations.MwaitIgnoresUpperRcxOutside64BitMode := by
  intro s v hx hl hv
  have hecx : ecx { s.cpu with rcx := v } = ecx s.cpu := by rw [ecx_eq, ecx_eq]; exact hv
  obtain ⟨t, ht⟩ := exec_mwait_setCpu hx
  have hcheck := mwaitCheck_congr_ecx s.cfg hecx rfl hl rfl
  refine ⟨t.withOperands s.cpu, ht s.cpu rfl rfl rfl, ?_⟩
  rw [ht { s.cpu with rcx := v } rfl rfl hcheck]
  simp [State.withOperands, eax, ext0, hecx]

/-! ### What a step leaves unchanged -/

/-- MWAIT writes `pc`, the monitor, the wait and the record for `TrapEntry`, and nothing else. -/
theorem exec_mwait_frame (h : exec .mwait s = .next t) :
    t = { s with
      cpu := { s.cpu with pc := t.cpu.pc }, mon := t.mon, wait := t.wait, trap := t.trap } ∧
    (t.cpu.pc = s.cpu.pc ∨ t.cpu.pc = s.pcAfter) ∧ (t.mon = s.mon ∨ t.mon = .triggered) := by
  obtain ⟨-, ⟨x, -, rfl⟩ | ⟨-, -, rfl⟩ | ⟨-, -, rfl⟩⟩ := exec_mwait_next s t h
  · exact ⟨rfl, .inl rfl, .inl rfl⟩
  · exact ⟨rfl, .inr rfl, .inr rfl⟩
  · exact ⟨rfl, .inr rfl, .inl rfl⟩

theorem exec_mwait_cfg (h : exec .mwait s = .next t) : t.cfg = s.cfg := by
  rw [(exec_mwait_frame h).1]

theorem exec_mwait_cpu (h : exec .mwait s = .next t) : t.cpu = { s.cpu with pc := t.cpu.pc } :=
  congrArg State.cpu (exec_mwait_frame h).1

@[simp] theorem State.returnFromHandler_cfg : s.returnFromHandler.cfg = s.cfg := by
  unfold State.returnFromHandler
  split <;> rfl

@[simp] theorem State.returnFromHandler_mon : s.returnFromHandler.mon = s.mon := by
  unfold State.returnFromHandler
  split <;> rfl

@[simp] theorem State.storeEffect_cpu (st : StoreEvent) (seen : Bool) :
    (s.storeEffect st seen).cpu = s.cpu := by rw [State.storeEffect_eq]

@[simp] theorem State.storeEffect_cfg (st : StoreEvent) (seen : Bool) :
    (s.storeEffect st seen).cfg = s.cfg := by rw [State.storeEffect_eq]

/-- A store event leaves the monitor or triggers it. -/
theorem State.storeEffect_mon (st : StoreEvent) (seen : Bool) :
    (s.storeEffect st seen).mon = s.mon ∨ (s.storeEffect st seen).mon = .triggered := by
  rw [State.storeEffect_eq]
  cases s.storeTriggers st seen
  · exact .inl rfl
  · exact .inr rfl

theorem Moves.cfg {tn : Turn} (hm : Moves s tn u) : u.cfg = s.cfg := by
  cases hm with
  | execute _ _ _ _ _ hx => exact exec_mwait_cfg hx
  | handlerReturn => exact State.returnFromHandler_cfg
  | store st seen => exact State.storeEffect_cfg st seen
  | _ => rfl

theorem step_cfg (h : step s = .next t) : t.cfg = s.cfg := by
  obtain ⟨_, -, hm⟩ := step_moves h
  exact hm.cfg

/-- Settles O50: no turn writes the configuration, and `MonitorRange` depends on nothing else. -/
theorem configurationNeverChanges : Obligations.ConfigurationNeverChanges := by
  intro k s t h
  have hcfg : t.cfg = s.cfg :=
    runSteps_keeps (P := fun u => u.cfg = s.cfg) (fun _ _ hp hs => (step_cfg hs).trans hp)
      k s t rfl h
  exact ⟨hcfg, State.monitorRange_congr hcfg⟩

/-! ### The monitor and the wait -/

/-- A turn leaves the monitor, arms it by MONITOR, or leaves it not armed. -/
theorem Moves.mon {tn : Turn} (hm : Moves s tn u) :
    u.mon = s.mon ∨ (∃ a, tn = .arm a ∧ u.mon = .armed (s.monitorRange a)) ∨
      ∀ r, u.mon ≠ .armed r := by
  cases hm with
  | waitExit | armFail | spurious => exact .inr (.inr nofun)
  | signal _ _ _ _ _ _ _ harm => exact .inr (.inr harm)
  | execute _ _ _ _ _ hx =>
    rcases (exec_mwait_frame hx).2.2 with h | h
    · exact .inl h
    · exact .inr (.inr (by simp [h]))
  | arm a => exact .inr (.inl ⟨a, rfl, rfl⟩)
  | handlerReturn => exact .inl State.returnFromHandler_mon
  | store st seen =>
    rcases s.storeEffect_mon st seen with h | h
    · exact .inl h
    · exact .inr (.inr (by simp [h]))
  | _ => exact .inl rfl

/-- Settles O40: the other turns leave the monitor as it was or not armed. -/
theorem onlyArmArms : Obligations.OnlyArmArms := by
  intro s t r hs hr
  obtain ⟨tn, rfl, hm⟩ := step_moves hs
  rcases hm.mon with h | ⟨a, ha, h⟩ | h
  · exact .inl (h.symm.trans hr)
  · exact .inr ⟨a, ha, Monitor.armed.inj (hr.symm.trans h)⟩
  · exact absurd hr (h r)

/-- Everything a turn can do to a P that waits: end the wait, or leave all of P but the monitor,
which a store may trigger, its pending events and their masking. -/
theorem Moves.waiting {tn : Turn} (hm : Moves s tn u) (hw : s.wait.isSome) :
    u = s.waitExit ∨
    u = { s with mon := u.mon, pend := u.pend, unmasked := u.unmasked, mem := u.mem } ∧
      (u.mon = s.mon ∨ u.mon = .triggered) := by
  have hne : s.wait ≠ none := Option.isSome_iff_ne_none.mp hw
  cases hm with
  | waitExit | spurious => exact .inl rfl
  | trapEntry _ _ h | signal _ _ _ h | deliver _ _ h | arm _ h | armFail h
  | handlerReturn _ _ h => exact absurd h hne
  | execute _ _ _ _ _ hx => exact absurd (exec_mwait_next _ _ hx).1.1 hne
  | store st seen =>
    exact .inr ⟨by rw [State.storeEffect_eq], s.storeEffect_mon st seen⟩
  | waitStay | raise | withdraw | setUnmasked | pass => exact .inr ⟨rfl, .inl rfl⟩

/-- Settles O20. -/
theorem waitingProcessorOnlyExits : Obligations.WaitingProcessorOnlyExits := by
  intro s t hw hs
  obtain ⟨_, -, hm⟩ := step_moves hs
  rcases hm.waiting hw with rfl | ⟨h, hmon⟩
  · exact ⟨rfl, rfl, rfl, rfl, .inr rfl, .inr rfl⟩
  · rw [h]
    exact ⟨rfl, rfl, rfl, rfl, .inl rfl, hmon⟩

theorem State.not_free_of_waiting (hw : s.wait.isSome) : s.free = false := by
  simp [State.free, Option.isNone_eq_false_iff.mpr hw]

/-- Settles O32: both turns are taken exactly where P is free. -/
theorem armAndArmFail : Obligations.ArmAndArmFail := by
  intro s a ht
  have taken (hw : s.wait = none) : s.free = true := State.free_iff.mpr ⟨hw, ht⟩
  refine ⟨fun hw => ?_, fun hw => ?_, fun hw => ?_⟩
  · rw [State.runTurn, if_pos (taken hw), State.arm_eq]
  · rw [State.runTurn, if_pos (taken hw), State.armFail_eq]
  · simp [State.runTurn, State.not_free_of_waiting hw]

/-! ### Pending events -/

theorem State.mem_raiseEvent (s : State) (e e' : Event) :
    e' ∈ (s.raiseEvent e).pend ↔ e' ∈ s.pend ∨ e' = e := by
  rw [State.raiseEvent, State.setPend_pend]
  split
  · next he =>
    have he : e ∈ s.pend := by simpa using he
    exact ⟨.inl, Or.rec id (· ▸ he)⟩
  · simp

theorem State.mem_dropEvent (s : State) (e e' : Event) :
    e' ∈ (s.dropEvent e).pend ↔ e' ∈ s.pend ∧ e' ≠ e := by
  simp [State.dropEvent]

/-- Settles O42. -/
theorem raiseAndWithdraw : Obligations.RaiseAndWithdraw := fun s e =>
  ⟨s.raiseEvent e, s.dropEvent e, rfl, rfl, s.mem_raiseEvent e, rfl, rfl, s.mem_dropEvent e⟩

/-! ### The registers -/

/-- A turn changes no register but `pc`, and that to `pc + 3`, unless `TrapEntry` acts, a handler
returns, or a signal is taken. -/
theorem Moves.cpu {tn : Turn} (hm : Moves s tn u) :
    (u.cpu = { s.cpu with pc := u.cpu.pc } ∧ (u.cpu.pc = s.cpu.pc ∨ u.cpu.pc = s.pcAfter)) ∨
    (s.wait = none ∧
      (((∃ pick, tn = .self pick) ∧ ∃ r, s.trap = some r) ∨
        (tn = .handlerReturn ∧ s.trap = none ∧ s.frames ≠ []))) ∨
    ∃ e, (∃ pick, tn = .self pick) ∧ s.wait = none ∧ s.trap = none ∧ e ∈ s.pend ∧
      Event.isSignal e = true := by
  cases hm with
  | trapEntry pick r hw ht => exact .inr (.inl ⟨hw, .inl ⟨⟨pick, rfl⟩, r, ht⟩⟩)
  | signal pick e _ hw ht he hsig => exact .inr (.inr ⟨e, ⟨pick, rfl⟩, hw, ht, he, hsig⟩)
  | execute _ _ _ _ _ hx => exact .inl ⟨exec_mwait_cpu hx, (exec_mwait_frame hx).2.1⟩
  | handlerReturn f fs hw ht hf => exact .inr (.inl ⟨hw, .inr ⟨rfl, ht, by simp [hf]⟩⟩)
  | store st seen =>
    rw [State.storeEffect_cpu]
    exact .inl ⟨rfl, .inl rfl⟩
  | _ => exact .inl ⟨rfl, .inl rfl⟩

/-- Settles O53. -/
theorem onlyTrapsAndSignalsChangeRegisters : Obligations.OnlyTrapsAndSignalsChangeRegisters := by
  intro s t hs
  obtain ⟨tn, rfl, hm⟩ := step_moves hs
  rcases hm.cpu with ⟨hcpu, hpc⟩ | htrap | ⟨e, hself, hw, ht, he, hsig⟩
  · exact .inl ⟨by rw [hcpu]; rfl, hpc⟩
  · exact .inr (.inl htrap)
  · exact .inr (.inr ⟨e, hself, hw, ht, he, (Event.isSignal_iff e).mp hsig⟩)

end Sys2Proof.Machine

/-! PROOFS. The statements of the family 20_memory.md: what a store event does to memory and to the
monitor, agent by agent, what else ends the armed state, and that memory and the program text change
by stores alone. Each branch of the store's turn and of its agent rule has one lemma, and every
statement about a step goes by cases on `Moves`. -/

namespace Sys2Proof.Machine

variable {s t u : State}

/-! ### What the turn of a store event answers -/

/-- A store of P's own passes during a wait: 20_memory.md R45. -/
theorem runTurn_store_passes {st : StoreEvent} (seen : Bool) (ha : st.agent = .self)
    (hw : s.wait.isSome) : s.runTurn (.store st seen) = .next s := by
  simp [State.runTurn, State.storeTurn, ha, hw]

/-- A store to the program text that would be carried out is refused: 20_memory.md R56. -/
theorem runTurn_store_refused {st : StoreEvent} (seen : Bool)
    (h : st.agent ≠ .self ∨ s.wait = none) (ht : overlapsText st s) :
    s.runTurn (.store st seen) = .refused .storeToProgramText := by
  simp only [State.runTurn, State.storeTurn]
  rw [if_neg (by rcases h with h | h <;> simp [h]), if_pos ((s.overlapsText_iff st).mpr ht)]

/-- Everything a store event that is not refused can do: it is carried out whole, or, as P's own
during a wait, it passes. -/
theorem runTurn_store_next {st : StoreEvent} {seen : Bool}
    (h : s.runTurn (.store st seen) = .next t) :
    ((st.agent ≠ .self ∨ s.wait = none) ∧ t = s.storeEffect st seen) ∨
    (st.agent = .self ∧ s.wait ≠ none ∧ t = s) := by
  by_cases hc : st.agent ≠ .self ∨ s.wait = none
  · by_cases ht : overlapsText st s
    · rw [runTurn_store_refused seen hc ht] at h
      cases h
    · rw [runTurn_store st seen hc ht] at h
      cases h
      exact .inl ⟨hc, rfl⟩
  · obtain ⟨ha, hw⟩ := not_or.mp hc
    have ha : st.agent = .self := not_not.mp ha
    rw [runTurn_store_passes seen ha (Option.isSome_iff_ne_none.mpr hw)] at h
    cases h
    exact .inr ⟨ha, hw, rfl⟩

/-! ### The effect of a store event -/

@[simp] theorem State.storeEffect_wait (st : StoreEvent) (seen : Bool) :
    (s.storeEffect st seen).wait = s.wait := by rw [State.storeEffect_eq]

@[simp] theorem State.storeEffect_text (st : StoreEvent) (seen : Bool) :
    (s.storeEffect st seen).text = s.text := by rw [State.storeEffect_eq]

@[simp] theorem State.storeEffect_frames (st : StoreEvent) (seen : Bool) :
    (s.storeEffect st seen).frames = s.frames := by rw [State.storeEffect_eq]

theorem State.storeEffect_mon_of_triggers {st : StoreEvent} {seen : Bool}
    (h : s.storeTriggers st seen = true) : (s.storeEffect st seen).mon = .triggered := by
  rw [State.storeEffect_eq, if_pos h]

theorem State.storeEffect_mon_of_not_triggers {st : StoreEvent} {seen : Bool}
    (h : s.storeTriggers st seen = false) : (s.storeEffect st seen).mon = s.mon := by
  simp [State.storeEffect_eq, h]

/-- A store event leaves the monitor, or triggers it from the armed state by an overlap. -/
theorem State.storeEffect_mon_cases (s : State) (st : StoreEvent) (seen : Bool) :
    (s.storeEffect st seen).mon = s.mon ∨
    ((s.storeEffect st seen).mon = .triggered ∧ ∃ r, s.mon = .armed r ∧ overlapsRange st r) := by
  cases h : s.storeTriggers st seen with
  | false => exact .inl (State.storeEffect_mon_of_not_triggers h)
  | true => exact .inr ⟨State.storeEffect_mon_of_triggers h, s.storeTriggers_armed st seen h⟩

/-- The stored bytes are in memory. -/
theorem State.storeEffect_read_at (s : State) (st : StoreEvent) (seen : Bool) {k : Nat}
    (hk : k < st.more.length + 1) :
    (s.storeEffect st seen).mem.read (st.addr + k) = (st.byte0 :: st.more)[k]? := by
  rw [State.storeEffect_eq]
  exact Memory.read_writeBytes_at _ _ _ _ hk

/-- Settles O36. -/
theorem storeFrame : Obligations.StoreFrame := by
  intro s t st seen h
  rcases runTurn_store_next h with ⟨-, rfl⟩ | ⟨ha, hw, rfl⟩
  · exact ⟨by rw [State.storeEffect_eq], s.storeEffect_mon_cases st seen,
      s.storeEffect_read_other st seen, fun _ _ => s.storeEffect_read_at st seen⟩
  · exact ⟨rfl, .inl rfl, fun _ _ => rfl, fun hc => absurd hc (by simp [ha, hw])⟩

/-! ### Which overlapping stores trigger, agent by agent -/

section
variable {st : StoreEvent} {r : Range} (hr : s.mon = .armed r) (ho : overlapsRange st r)
include hr ho

/-- 20_memory.md R43. -/
theorem State.storeTriggers_proc (seen : Bool) (ha : st.agent = .proc) :
    s.storeTriggers st seen = true := by
  simp [State.storeTriggers, hr, ha, (st.overlaps_iff r).mpr ho]

/-- 20_memory.md R46: before the wait no hint is consulted. -/
theorem State.storeTriggers_nonproc_of_not_waiting (seen : Bool) (ha : st.agent = .nonproc)
    (hw : s.wait = none) : s.storeTriggers st seen = true := by
  simp [State.storeTriggers, hr, ha, hw, (st.overlaps_iff r).mpr ho]

/-- 20_memory.md R44. -/
theorem State.storeTriggers_nonproc_of_waiting (seen : Bool) (ha : st.agent = .nonproc)
    {w : WaitCtx} (hw : s.wait = some w) :
    s.storeTriggers st seen = (allStoresWake s.cfg w.hints || seen) := by
  simp [State.storeTriggers, hr, ha, hw, (st.overlaps_iff r).mpr ho]

/-- 20_memory.md R45. -/
theorem State.storeTriggers_self (seen : Bool) (ha : st.agent = .self) :
    s.storeTriggers st seen = seen := by
  simp [State.storeTriggers, hr, ha, (st.overlaps_iff r).mpr ho]

/-- 20_memory.md R43, R46: where P does not wait, a store of any other agent triggers. -/
theorem State.storeTriggers_other_of_not_waiting (seen : Bool) (ha : st.agent ≠ .self)
    (hw : s.wait = none) : s.storeTriggers st seen = true := by
  cases hag : st.agent with
  | proc => exact State.storeTriggers_proc hr ho seen hag
  | nonproc => exact State.storeTriggers_nonproc_of_not_waiting hr ho seen hag hw
  | self => exact absurd hag ha

end

/-- Settles O33. -/
theorem otherProcessorStoreAlwaysTriggers : Obligations.OtherProcessorStoreAlwaysTriggers := by
  intro s st seen r ha hr ho ht
  exact ⟨_, runTurn_store st seen (.inl (by simp [ha])) ht,
    State.storeEffect_mon_of_triggers (State.storeTriggers_proc hr ho seen ha),
    State.storeEffect_wait st seen⟩

/-- Settles O34: `AllStoresWake` is the arithmetic of the statement, and where it fails the monitor
follows `seen`. -/
theorem nonProcessorStoreTriggersByTheHints : Obligations.NonProcessorStoreTriggersByTheHints := by
  intro s st seen r ha hr ho ht
  refine ⟨_, runTurn_store st seen (.inl (by simp [ha])) ht, fun hw => ?_, fun w hw => ?_⟩
  · exact State.storeEffect_mon_of_triggers
      (State.storeTriggers_nonproc_of_not_waiting hr ho seen ha hw)
  · intro h wakes
    have hiff : allStoresWake s.cfg w.hints = true ↔ wakes := allStoresWake_iff s.cfg w.hints
    have htrig := State.storeTriggers_nonproc_of_waiting hr ho seen ha hw
    refine ⟨fun hwakes => ?_, fun _ hseen => ?_, fun hwakes hseen => ?_⟩
    · exact State.storeEffect_mon_of_triggers (by rw [htrig, hiff.mpr hwakes, Bool.true_or])
    · exact State.storeEffect_mon_of_triggers (by rw [htrig, hseen, Bool.or_true])
    · have hno : allStoresWake s.cfg w.hints = false :=
        Bool.eq_false_iff.mpr fun hyes => hwakes (hiff.mp hyes)
      exact State.storeEffect_mon_of_not_triggers (by rw [htrig, hno, hseen, Bool.false_or])

/-- Settles O35. -/
theorem ownStoreMayTriggerOrNot : Obligations.OwnStoreMayTriggerOrNot := by
  intro s st r ha hr ho ht
  refine ⟨fun hw seen => runTurn_store_passes seen ha hw, fun hw => ⟨?_, ?_⟩⟩
  · exact ⟨_, runTurn_store st true (.inr hw) ht,
      State.storeEffect_mon_of_triggers (State.storeTriggers_self hr ho true ha)⟩
  · exact ⟨_, runTurn_store st false (.inr hw) ht,
      (State.storeEffect_mon_of_not_triggers (State.storeTriggers_self hr ho false ha)).trans hr⟩

/-! ### The operation of MWAIT, with all checks passed -/

/-- Where P does not wait, MWAIT enters the wait exactly with the monitor armed, and writes `pc`
either way. -/
theorem mwaitOperate_spec (s : State) (hw : s.wait = none) :
    (mwaitOperate s).cpu = { s.cpu with pc := s.pcAfter } ∧
    (mwaitOperate s).trap = s.trap ∧ (mwaitOperate s).pend = s.pend ∧
    ((mwaitOperate s).wait.isSome ↔ ∃ r, s.mon = .armed r) := by
  by_cases hr : ∃ r, s.mon = .armed r
  · obtain ⟨r, hr⟩ := hr
    rw [mwaitOperate_armed s r hr, State.enterWait_eq]
    exact ⟨rfl, rfl, rfl, by simp [hr]⟩
  · rw [mwaitOperate_not_armed s (not_exists.mp hr), State.completeMwait_eq]
    exact ⟨rfl, rfl, rfl, by simp [hr, hw]⟩

/-- Settles O37: after `Arm` the store triggers, since P does not wait yet, and MWAIT then finds the
monitor not armed. -/
theorem storeBeforeMwaitIsNotLost : Obligations.StoreBeforeMwaitIsNotLost := by
  intro s a st seen hx htrap hallow hagent ho htext
  obtain ⟨hw, hguest, hsmm⟩ := hx
  have harm : s.runTurn (.arm a) = .next (s.arm a) := (armAndArmFail s a htrap).1 hw
  have hmon : ((s.arm a).storeEffect st seen).mon = .triggered :=
    State.storeEffect_mon_of_triggers
      (State.storeTriggers_other_of_not_waiting (s := s.arm a) rfl ho seen hagent hw)
  have hx : ((s.arm a).storeEffect st seen).mayExecute :=
    ⟨(State.storeEffect_wait st seen).trans hw, by rw [State.storeEffect_cfg]; exact hguest,
      (State.inSmm_congr (State.storeEffect_frames st seen)).trans hsmm⟩
  have hexec := exec_mwait_operates _ hx (by simpa [State.arm] using hallow)
  rw [mwaitOperate_not_armed _ (by simp [hmon]), State.completeMwait_eq] at hexec
  refine ⟨_, _, _, harm, runTurn_store st seen (.inl hagent) htext, hexec, hx.1, rfl, ?_⟩
  simp [State.pcAfter, State.arm]

/-! ### What ends the armed state -/

/-- MWAIT leaves an armed monitor armed. -/
theorem exec_mwait_mon_of_armed {r : Range} (hr : s.mon = .armed r)
    (h : exec .mwait s = .next t) : t.mon = s.mon := by
  obtain ⟨-, ⟨x, -, rfl⟩ | ⟨-, hno, -⟩ | ⟨-, -, rfl⟩⟩ := exec_mwait_next s t h
  · rfl
  · exact absurd hr (hno r)
  · rfl

/-- A turn leaves an armed monitor, or it is a store that overlaps the range, the end of a wait, a
MONITOR, failed or not, or a signal. -/
theorem Moves.armed {tn : Turn} {r : Range} (hm : Moves s tn u) (hr : s.mon = .armed r) :
    u.mon = .armed r ∨
    (∃ st seen, tn = .store st seen ∧ overlapsRange st r ∧ u.mon = .triggered) ∨
    (s.wait.isSome ∧ u.wait = none ∧ u.mon = .triggered) ∨
    (tn = .armFail ∧ u.mon = .idle) ∨
    (∃ a, tn = .arm a ∧ u.mon = .armed (s.monitorRange a)) ∨
    ((∃ e, (∃ pick, tn = .self pick) ∧ s.wait = none ∧ s.trap = none ∧ e ∈ s.pend ∧
      Event.isSignal e = true) ∧ ∀ r', u.mon ≠ .armed r') := by
  cases hm with
  | waitExit _ hw | spurious hw => exact .inr (.inr (.inl ⟨hw, rfl, rfl⟩))
  | signal pick e _ hw ht he hsig harm =>
    exact .inr (.inr (.inr (.inr (.inr ⟨⟨e, ⟨pick, rfl⟩, hw, ht, he, hsig⟩, harm⟩))))
  | execute _ _ _ _ _ hx => exact .inl ((exec_mwait_mon_of_armed hr hx).trans hr)
  | arm a => exact .inr (.inr (.inr (.inr (.inl ⟨a, rfl, rfl⟩))))
  | armFail => exact .inr (.inr (.inr (.inl ⟨rfl, rfl⟩)))
  | handlerReturn => exact .inl (State.returnFromHandler_mon.trans hr)
  | store st seen =>
    rcases s.storeEffect_mon_cases st seen with h | ⟨h, r', hr', ho⟩
    · exact .inl (h.trans hr)
    · obtain rfl : r' = r := Monitor.armed.inj (hr'.symm.trans hr)
      exact .inr (.inl ⟨st, seen, rfl, ho, h⟩)
  | waitStay | trapEntry | deliver | raise | withdraw | setUnmasked | pass => exact .inl hr

/-- Settles O39. -/
theorem onlyTheListedStepsDisarm : Obligations.OnlyTheListedStepsDisarm := by
  intro s t r hr hs hne
  obtain ⟨tn, rfl, hm⟩ := step_moves hs
  rcases hm.armed hr with h | h | h | h | h | ⟨⟨e, hself, hw, ht, he, hsig⟩, hno⟩
  · exact absurd h hne
  · exact .inl h
  · exact .inr (.inl h)
  · exact .inr (.inr (.inl h))
  · exact .inr (.inr (.inr (.inl h)))
  · exact .inr (.inr (.inr (.inr
      ⟨⟨e, hself, hw, ht, he, (Event.isSignal_iff e).mp hsig⟩, hno⟩)))

/-! ### Memory and the program text -/

@[simp] theorem State.returnFromHandler_mem : s.returnFromHandler.mem = s.mem := by
  unfold State.returnFromHandler
  split <;> rfl

@[simp] theorem State.returnFromHandler_text : s.returnFromHandler.text = s.text := by
  unfold State.returnFromHandler
  split <;> rfl

/-- A turn leaves memory and the program text, or it is a store that is carried out, outside the
text. -/
theorem Moves.mem {tn : Turn} (hm : Moves s tn u) :
    (u.mem = s.mem ∧ u.text = s.text) ∨
    ∃ st seen, tn = .store st seen ∧ ¬ overlapsText st s ∧ u = s.storeEffect st seen := by
  cases hm with
  | execute _ _ _ _ _ hx => exact .inl (by rw [(exec_mwait_frame hx).1]; exact ⟨rfl, rfl⟩)
  | handlerReturn => exact .inl ⟨State.returnFromHandler_mem, State.returnFromHandler_text⟩
  | store st seen _ ht => exact .inr ⟨st, seen, rfl, ht, rfl⟩
  | _ => exact .inl ⟨rfl, rfl⟩

/-- Settles O52. -/
theorem onlyStoresChangeMemory : Obligations.OnlyStoresChangeMemory := by
  intro s t hs hno a
  obtain ⟨tn, rfl, hm⟩ := step_moves hs
  rcases hm.mem with ⟨hmem, -⟩ | ⟨st, seen, htn, -⟩
  · rw [hmem, State.tick_mem]
  · exact absurd htn (hno st seen)

/-- The program text of `t`, addresses and bytes, is that of `s`: 20_memory.md R56. -/
def sameText (s t : State) : Prop :=
  t.text = s.text ∧ ∀ a ∈ s.text, t.mem.read a = s.mem.read a

theorem sameText.refl (s : State) : sameText s s := ⟨rfl, fun _ _ => rfl⟩

theorem sameText.trans (h₁ : sameText s t) (h₂ : sameText t u) : sameText s u :=
  ⟨h₂.1.trans h₁.1, fun a ha => (h₂.2 a (h₁.1.symm ▸ ha)).trans (h₁.2 a ha)⟩

/-- A store outside the program text writes none of its bytes. -/
theorem State.storeEffect_sameText {st : StoreEvent} (seen : Bool) (h : ¬ overlapsText st s) :
    sameText s (s.storeEffect st seen) :=
  ⟨State.storeEffect_text st seen, fun _ ha =>
    s.storeEffect_read_other st seen _ fun k hk e => h ⟨k, hk, e ▸ ha⟩⟩

theorem step_sameText (h : step s = .next t) : sameText s t := by
  obtain ⟨_, -, hm⟩ := step_moves h
  rcases hm.mem with ⟨hmem, htext⟩ | ⟨st, seen, -, ht, rfl⟩
  · exact ⟨htext, fun _ _ => by rw [hmem, State.tick_mem]⟩
  · exact State.storeEffect_sameText (s := s.tick) seen ht

/-- Settles O51: every step keeps the program text, so every run does. -/
theorem programTextIsFixed : Obligations.ProgramTextIsFixed := by
  refine ⟨fun k s t h => ?_, fun s st seen ht hc => runTurn_store_refused seen hc ht⟩
  have keep : ∀ u v, sameText s u → step u = .next v → sameText s v := fun _ _ hu hs =>
    hu.trans (step_sameText hs)
  exact runSteps_keeps keep k s t (.refl s) h

/-- Settles O38. -/
theorem otherAccessesHaveNoEffect : Obligations.OtherAccessesHaveNoEffect := by
  intro s t kind agent a n rest hscript h
  rw [step_cons hscript, State.runTurn, State.tick_eq, hscript] at h
  cases h
  rfl

/-- Settles O58. -/
theorem memoryReadAfterWrite : Obligations.MemoryReadAfterWrite := by
  refine fun m a b v => ⟨?_, Memory.write_wf m a v⟩
  split
  · next h => rw [h, Memory.read_write_same]
  · next h => exact Memory.read_write_other m v h

/-! ### Placing an instruction -/

theorem State.withFetchWord_mwait (s : State) :
    s.withFetchWord 24 0x0F01C9 = s.placeAtPc (encode .mwait) := rfl

/-- Placing MWAIT makes its bytes the program text at `pc`. -/
theorem State.placeAtPc_mwaitAt (s : State) : (s.placeAtPc (encode .mwait)).mwaitAt s.cpu.pc :=
  have byte := State.placeAtPc_textByte (s := s) (encode .mwait)
  ⟨byte 0 (by decide), byte 1 (by decide), byte 2 (by decide)⟩

/-- The placed MWAIT executes: 40_mwait.md R91, R92. -/
theorem State.step_placeAtPc_mwait (s : State) (hguest : s.cfg.guest = false)
    (hsmm : s.inSmm = false) (hle : s.cpu.pc + 3 ≤ 2 ^ s.cfg.ipw s.cpu.mode)
    (hallow : MwaitAllowed s.cpu s.cfg) :
    step (s.placeAtPc (encode .mwait)) =
      .next (mwaitOperate (s.placeAtPc (encode .mwait)).ticked) := by
  have hexec := State.execNext_of_mwaitAt (s.placeAtPc (encode .mwait)).ticked
    (by simpa using hle) s.placeAtPc_mwaitAt
  have hx : (s.placeAtPc (encode .mwait)).ticked.mayExecute :=
    ⟨rfl, by simpa using hguest, by simpa using hsmm⟩
  rw [step_of_turnExecutes (State.placeAtPc_turnExecutes _), hexec,
    exec_mwait_operates _ hx (by simpa using hallow)]

/-- Settles O57: the placed MWAIT raises nothing, and placing it changes nothing that the operation
of MWAIT reads. -/
theorem placedInstructionRunsNext : Obligations.PlacedInstructionRunsNext := by
  intro s hguest hsmm hle hallow
  rw [s.withFetchWord_mwait, s.step_placeAtPc_mwait hguest hsmm hle hallow]
  obtain ⟨hcpu, htrap, hpend, hwait⟩ :=
    mwaitOperate_spec (s.placeAtPc (encode .mwait)).ticked (by simp)
  exact ⟨_, rfl, by simpa using htrap, by simpa using hpend, by simpa [State.pcAfter] using hcpu,
    by simpa using hwait⟩

end Sys2Proof.Machine

/-! PROOFS. The statements of the family 30_encoding.md: the decoder and its inverse, what the fetch
makes of the program text at `pc`, and the intrinsic's arguments. -/

namespace Sys2Proof.Machine

/-! ### The opcode word -/

theorem tableBytes_24 (w : Nat) :
    tableBytes 24 w =
      [BitVec.ofNat 8 (w / 256 ^ 2), BitVec.ofNat 8 (w / 256 ^ 1), BitVec.ofNat 8 (w / 256 ^ 0)] := rfl

theorem decodeTableWord_eq_some_iff (n w : Nat) (i : Instr) :
    decodeTableWord n w = some i ↔ ∃ rest, decode (tableBytes n w) = .ok (i, rest) := by
  unfold decodeTableWord
  split
  · next j rest hd => simp [hd]
  · next e hd => simp [hd]

/-- The three bytes of a 24-bit word are MWAIT's exactly when the word is the `match` of
30_encoding.md R62, which puts the first byte on top. -/
theorem tableBytes_24_eq_encode_iff (w : Nat) :
    tableBytes 24 w = encode .mwait ↔ w % 2 ^ 24 = 0x0F01C9 := by
  simp only [tableBytes_24, encode, List.cons.injEq, and_true, ← BitVec.toNat_inj,
    BitVec.toNat_ofNat, BitVec.reduceToNat]
  omega

theorem decodeTableWord_24_eq_mwait_iff (w : Nat) :
    decodeTableWord 24 w = some .mwait ↔ w &&& 0xFFFFFF = 0x0F01C9 := by
  have hmask : w &&& 0xFFFFFF = w % 2 ^ 24 := Nat.and_two_pow_sub_one_eq_mod w 24
  rw [hmask, ← tableBytes_24_eq_encode_iff, decodeTableWord_eq_some_iff]
  constructor
  · rintro ⟨rest, hd⟩
    obtain ⟨-, hbytes⟩ := (decode_ok_iff _ _ _).mp hd
    have hrest : rest = [] := by simpa [tableBytes_24] using (congrArg List.length hbytes).symm
    rw [hbytes, hrest, encode]
  · intro hbytes
    exact ⟨[], hbytes ▸ decode_encode .mwait []⟩

/-! ### The decoder -/

/-- Settles O1. -/
theorem decodesExactlyTheBareBytes : Obligations.DecodesExactlyTheBareBytes :=
  ⟨decode_ok_iff, decodeTableWord_24_eq_mwait_iff⟩

/-- Settles O2. -/
theorem decodeInvertsEncode : Obligations.DecodeInvertsEncode := by
  intro i rest hwf
  cases i with
  | mwait => exact Laws.Encoding.mwait hwf rest

/-- Settles O3: the words the decoder accepts are encodings of MWAIT, the refused ones are
evaluated. -/
theorem decodesTheWrittenOutWords : Obligations.DecodesTheWrittenOutWords :=
  ⟨decode_encode .mwait [0x90], decode_encode .mwait [],
    (decodeTableWord_24_eq_mwait_iff _).mpr rfl, by decide⟩

/-! ### The fetch -/

/-- Below the straddling zone, bytes that are not MWAIT's are refused under one of the decoder's
three verdicts. -/
theorem State.execNext_of_not_mwaitAt (s : State)
    (hle : s.cpu.pc + 3 ≤ 2 ^ s.cfg.ipw s.cpu.mode) (hm : ¬ s.mwaitAt s.cpu.pc) :
    ∃ r, s.execNext = .refused r ∧ (r = .notMwait ∨ r = .prefixedForm ∨ r = .endOfText) := by
  cases hf : s.fetch with
  | ok i => exact absurd ((s.fetch_ok_iff i).mp hf).2 hm
  | error r =>
    refine ⟨r, by simp [State.execNext, hf], ?_⟩
    rcases s.fetch_error r hf with ⟨-, hlt⟩ | ⟨hname, -⟩
    · omega
    · exact hname

/-- Settles O4. -/
theorem fetchRunsMwaitOrRefuses : Obligations.FetchRunsMwaitOrRefuses := fun s hle =>
  ⟨s.execNext_of_mwaitAt hle, s.execNext_of_not_mwaitAt hle⟩

/-! ### The intrinsic -/

/-- In a word that ends at bit `hi`, a bit from `lo` up is set exactly when the word has reached
`2 ^ lo`. -/
theorem someBitSet_iff_two_pow_le {w lo hi : Nat} (v : BitVec w) (hv : v.toNat < 2 ^ (hi + 1)) :
    someBitSet v lo hi ↔ 2 ^ lo ≤ v.toNat := by
  constructor
  · rintro ⟨n, hlo, -, hbit⟩
    exact (Nat.pow_le_pow_right two_pos hlo).trans (Nat.ge_two_pow_of_testBit hbit)
  · intro hle
    obtain ⟨n, hlo, hbit⟩ := Nat.exists_ge_and_testBit_of_ge_two_pow hle
    have hn : n < hi + 1 :=
      (Nat.pow_lt_pow_iff_right one_lt_two).mp ((Nat.ge_two_pow_of_testBit hbit).trans_lt hv)
    exact ⟨n, hlo, Nat.le_of_lt_succ hn, hbit⟩

/-- With the upper half of RCX clear, the 64-bit and the 32-bit form of the test agree. -/
theorem reservedBitsSet_iff_two_le (cpu : Cpu) (h : cpu.rcx.toNat < 2 ^ 32) :
    reservedBitsSet cpu ↔ 2 ≤ cpu.rcx.toNat := by
  have low : someBitSet cpu.rcx 1 31 ↔ 2 ≤ cpu.rcx.toNat := someBitSet_iff_two_pow_le cpu.rcx h
  have whole : someBitSet cpu.rcx 1 63 ↔ 2 ≤ cpu.rcx.toNat :=
    someBitSet_iff_two_pow_le cpu.rcx cpu.rcx.isLt
  cases hm : cpu.mode <;> simp only [reservedBitsSet, hm]
  case long64 => exact whole
  all_goals exact low

theorem intrinsicArgs_rcx (extensions hints : Dword) (cpu : Cpu) :
    (intrinsicArgs extensions hints cpu).rcx = extensions.setWidth 64 := rfl

theorem intrinsicArgs_rax (extensions hints : Dword) (cpu : Cpu) :
    (intrinsicArgs extensions hints cpu).rax = hints.setWidth 64 := rfl

theorem intrinsicArgs_rcx_toNat (extensions hints : Dword) (cpu : Cpu) :
    (intrinsicArgs extensions hints cpu).rcx.toNat = extensions.toNat := by
  rw [intrinsicArgs_rcx, BitVec.toNat_setWidth_of_le (by decide)]

/-- Settles O19: the 32-bit write leaves RCX below `2 ^ 32`, so every mode tests the same bits. -/
theorem intrinsicPutsExtensionsInEcx : Obligations.IntrinsicPutsExtensionsInEcx := by
  intro extensions hints cpu
  have hrcx := intrinsicArgs_rcx_toNat extensions hints cpu
  refine ⟨?_, ?_, ?_⟩
  · rw [intrinsicArgs_rcx, BitVec.setWidth_setWidth_of_le _ (by decide), BitVec.setWidth_eq]
  · rw [intrinsicArgs_rax, BitVec.setWidth_setWidth_of_le _ (by decide), BitVec.setWidth_eq]
  · rw [reservedBitsSet_iff_two_le _ (hrcx ▸ extensions.isLt), hrcx]

end Sys2Proof.Machine

/-! PROOFS. The statements of the family 40_mwait.md: which exception MWAIT raises, what it does
when it raises none, and the wait: what obliges it to end, what only lets it end, and what it leaves
unchanged. Statements about one MWAIT go by `exec_mwait_next`, statements about a step of the wait
by `Moves.waiting`, and statements about a run by induction on its steps. -/

namespace Sys2Proof.Machine

variable {s t u : State}

/-! ### The exceptions -/

/-- 40_mwait.md R86: a #UD condition decides, whatever the extensions register holds. -/
theorem exec_mwait_ud (hx : s.mayExecute) (hu : udCondition s.cpu s.cfg) :
    exec .mwait s = .next (s.handedExn .ud none) := by
  rw [exec_mwait_raises s hx ((mwaitCheck_ud_iff _ _).mpr hu), State.raiseExn_ud]

/-- 40_mwait.md R86: without a #UD condition every other failing check raises #GP. -/
theorem exec_mwait_gp (hx : s.mayExecute) (hu : ¬ udCondition s.cpu s.cfg)
    (ha : ¬ MwaitAllowed s.cpu s.cfg) :
    exec .mwait s = .next (s.handedExn .gp (gpCode s.cpu.mode)) := by
  rw [exec_mwait_raises s hx (mwaitCheck_gp _ _ hu ha), State.raiseExn_gp]

theorem exec_mwait_of_not_allowed (hx : s.mayExecute) (ha : ¬ MwaitAllowed s.cpu s.cfg) :
    ∃ x code, exec .mwait s = .next (s.handedExn x code) := by
  by_cases hu : udCondition s.cpu s.cfg
  · exact ⟨_, _, exec_mwait_ud hx hu⟩
  · exact ⟨_, _, exec_mwait_gp hx hu ha⟩

theorem not_udCondition {cpu : Cpu} {c : Cfg} (hv : cpu.mode ≠ .v86) (hc : c.cpuid01Ecx3 = true)
    (hp : cpu.mode = .real ∨ cpu.cpl = 0) : ¬ udCondition cpu c := by
  rintro (h | h | ⟨hr, hl⟩)
  · exact hv h
  · simp [hc] at h
  · exact hp.elim hr hl

/-- Settles O7. -/
theorem mwaitInV86RaisesUd : Obligations.MwaitInV86RaisesUd := fun _ hx hv =>
  exec_mwait_ud hx (.inl hv)

/-- Settles O8. -/
theorem mwaitWithoutTheFeatureRaisesUd : Obligations.MwaitWithoutTheFeatureRaisesUd :=
  fun _ hx _ hc => exec_mwait_ud hx (.inr (.inl hc))

/-- In real-address mode no check reads the privilege level (40_mwait.md R83). -/
theorem mwaitCheck_real_with_cpl {cpu : Cpu} (c : Cfg) (l : Fin 4) (hm : cpu.mode = .real) :
    mwaitCheck { cpu with cpl := l } c = mwaitCheck cpu c := by
  have hres : reservedSet { cpu with cpl := l } = reservedSet cpu := rfl
  have hext : ext0 { cpu with cpl := l } = ext0 cpu := rfl
  have htest : ∀ other, (testsCpl cpu.mode && other) = false := by simp [hm, testsCpl]
  simp only [mwaitCheck, hres, hext, htest]

/-- Settles O9: a privilege level other than 0 is a #UD condition outside real-address mode, where
the checks answer the same for every level. -/
theorem mwaitAtOtherPrivilegeRaisesUd : Obligations.MwaitAtOtherPrivilegeRaisesUd := by
  refine ⟨fun s hx hm hl => ?_, fun s l hx hm => ?_⟩
  · have hr : s.cpu.mode ≠ .real := fun e => by simp [e] at hm
    exact exec_mwait_ud hx (.inr (.inr ⟨hr, hl⟩))
  · obtain ⟨t, ht⟩ := exec_mwait_setCpu hx
    refine ⟨t.withOperands s.cpu, ht s.cpu rfl rfl rfl, ?_⟩
    exact ht { s.cpu with cpl := l } rfl rfl (mwaitCheck_real_with_cpl s.cfg l hm)

/-- Settles O10: the reserved bits are the only condition left, and without one MWAIT operates. -/
theorem mwaitReservedExtensionBitsRaiseGp : Obligations.MwaitReservedExtensionBitsRaiseGp := by
  intro s hx hv hc hp
  refine ⟨fun hres => ?_, fun hres hext => ?_⟩
  · exact exec_mwait_gp hx (not_udCondition hv hc hp) fun ha => ha.noReserved hres
  · obtain ⟨hcpu, htrap, -⟩ := mwaitOperate_spec s hx.1
    exact ⟨_, exec_mwait_operates s hx ⟨hv, hc, hp, hres, hext⟩, htrap, by rw [hcpu]⟩

/-- Settles O11. -/
theorem mwaitUnsupportedExtensionRaisesGp : Obligations.MwaitUnsupportedExtensionRaisesGp := by
  intro s hx hv hc hp hbit hno
  refine exec_mwait_gp hx (not_udCondition hv hc hp) fun ha => ?_
  simpa [hno] using ha.extension hbit

/-- Settles O12: the #UD conditions are `udCondition`. -/
theorem mwaitReportsUdBeforeGp : Obligations.MwaitReportsUdBeforeGp := by
  intro s hx
  refine ⟨fun ha => ?_, fun ha => ⟨exec_mwait_ud hx, fun hu => exec_mwait_gp hx hu ha⟩⟩
  obtain ⟨-, htrap, -⟩ := mwaitOperate_spec s hx.1
  exact ⟨_, exec_mwait_operates s hx ha, htrap⟩

/-! ### The operation and its frame -/

/-- Settles O14. -/
theorem mwaitNotArmedCompletes : Obligations.MwaitNotArmedCompletes := by
  intro s hx hno
  refine ⟨fun ha => ?_, exec_mwait_of_not_allowed hx⟩
  rw [exec_mwait_operates s hx ha, mwaitOperate_not_armed s hno, State.completeMwait_eq]

theorem exec_mwait_enterWait {r : Range} (hx : s.mayExecute) (ha : MwaitAllowed s.cpu s.cfg)
    (hr : s.mon = .armed r) : exec .mwait s = .next s.enterWait := by
  rw [exec_mwait_operates s hx ha, mwaitOperate_armed s r hr]

/-- The turn of the implementation ends every wait: 40_mwait.md R95. -/
theorem step_spurious {rest : List Turn} (hw : s.wait.isSome)
    (hscript : s.script = .spurious :: rest) : step s = .next s.tick.waitExit := by
  rw [step_cons hscript, State.runTurn, State.tick_wait, if_pos hw]

/-- Settles O15: the turn of the implementation may be the next one. -/
theorem mwaitArmedEntersTheWait : Obligations.MwaitArmedEntersTheWait := by
  intro s r hx ha hr
  have henter := exec_mwait_enterWait hx ha hr
  refine ⟨?_, fun t rest ht hscript => ?_⟩
  · rw [henter, State.enterWait_eq, eax_eq, ext0_eq]
  · rw [henter] at ht
    cases ht
    exact ⟨_, step_spurious (s := s.enterWait) rfl hscript, rfl, rfl⟩

/-- Settles O16. -/
theorem mwaitFrame : Obligations.MwaitFrame := by
  intro s t h
  obtain ⟨ht, hpc, -⟩ := exec_mwait_frame h
  rw [ht]
  exact ⟨rfl, rfl, rfl, rfl, rfl, rfl, hpc, fun _ => rfl, rfl, rfl, rfl, rfl, rfl, rfl, rfl, rfl⟩

/-- A next state of MWAIT that waits has entered the wait. -/
theorem exec_mwait_waits (h : exec .mwait s = .next t) (hw : t.wait.isSome) :
    (∃ r, s.mon = .armed r) ∧ t = s.enterWait := by
  obtain ⟨⟨hnone, -⟩, ⟨x, -, rfl⟩ | ⟨-, -, rfl⟩ | ⟨-, harmed, ht⟩⟩ := exec_mwait_next s t h
  · simp [State.raiseExn, State.handOver, hnone] at hw
  · simp [State.completeMwait_eq, hnone] at hw
  · exact ⟨harmed, ht⟩

/-! ### The hints -/

theorem targetCState_eq (h : Dword) :
    targetCState h = if h.toNat / 16 % 16 = 15 then 0 else h.toNat / 16 % 16 + 1 := by
  rw [targetCState, targetField_eq]

/-- Settles O41. -/
theorem allStoresWakeUpToC1 : Obligations.AllStoresWakeUpToC1 := by
  intro c h hc hlt
  rw [allStoresWake_iff, targetCState_eq, subCState_eq]
  simp only [hc, true_or, and_true, hlt, true_and]
  split <;> omega

/-! ### What obliges the wait to end -/

/-- Settles O23. -/
theorem dutyIsExactlyTheListedEvents : Obligations.DutyIsExactlyTheListedEvents := by
  intro s w hw
  rw [s.duty_eq hw, Bool.or_eq_true, s.dutyUncond_iff, s.dutyInt_iff, or_assoc]

/-- The tick of a wait remembers its duty. -/
theorem State.tick_owed_iff (hw : s.wait.isSome) :
    s.tick.owed = true ↔ s.owed = true ∨ s.duty = true := by
  simp [hw]

/-- Where an exit is owed or a duty holds, P's own turn is the exit, whatever its pick. -/
theorem step_self_owed {pick : Nat} (hn : s.nextTurn = .self pick) (hw : s.wait.isSome)
    (ho : s.owed = true ∨ s.duty = true) : step s = .next s.tick.waitExit := by
  rw [step, hn]
  exact runTurn_self_owed pick hw (.inl ((State.tick_owed_iff hw).mpr ho))

theorem State.nextTurn_cons {tn : Turn} {rest : List Turn} (h : s.script = tn :: rest) :
    s.nextTurn = tn := by
  rw [State.nextTurn, h]

/-- Settles O22: each of these events is a duty. -/
theorem unconditionalEventsEndTheWait : Obligations.UnconditionalEventsEndTheWait := by
  intro s pick rest hw hscript hevent
  obtain ⟨w, hwait⟩ := Option.isSome_iff_exists.mp hw
  have hduty : s.duty = true := by
    rw [dutyIsExactlyTheListedEvents s w hwait, ← or_assoc]
    exact .inl hevent
  exact ⟨_, step_self_owed (State.nextTurn_cons hscript) hw (.inr hduty), rfl, rfl⟩

/-! ### What only lets the wait end -/

theorem runTurn_self_waiting (pick : Nat) (hw : s.wait.isSome) :
    s.runTurn (.self pick) = .next (s.waitTurn pick) := by
  rw [State.runTurn, State.selfTurn, if_pos hw]

/-- The liberty of 40_mwait.md R95, taken. -/
theorem State.waitTurn_liberty {pick : Nat} (h : pick % 2 = 1) : s.waitTurn pick = s.waitExit := by
  simp [State.waitTurn, h]

/-- The liberty of 40_mwait.md R95, not taken. -/
theorem State.waitTurn_stay {pick : Nat} (h : pick % 2 = 0) (ho : s.owed = false)
    (hd : s.duty = false) : s.waitTurn pick = s := by
  simp [State.waitTurn, h, ho, hd]

/-- Without a duty P's own turn may pass. -/
theorem step_self_stay {rest : List Turn} (hw : s.wait.isSome) (ho : s.owed = false)
    (hd : s.duty = false) (hscript : s.script = .self 0 :: rest) : step s = .next s.tick := by
  rw [step_cons hscript, runTurn_self_waiting (s := s.tick) 0 hw,
    State.waitTurn_stay (s := s.tick) rfl (by simp [ho, hd]) hd]

/-- Settles O24. -/
theorem exitIsALibertyInEveryWait : Obligations.ExitIsALibertyInEveryWait := by
  intro s rest hw
  refine ⟨fun hscript => ?_, fun hscript => ?_, fun hscript ho hd => ?_⟩
  · exact ⟨_, step_spurious hw hscript, rfl⟩
  · refine ⟨s.tick.waitExit, ?_, rfl⟩
    rw [step_cons hscript, runTurn_self_waiting (s := s.tick) 1 hw, State.waitTurn_liberty rfl]
  · exact ⟨s.tick, step_self_stay hw ho hd hscript, rfl⟩

/-- A wait with the monitor armed and nothing pending, which the implementation is about to end. -/
def waitWithoutDuty : State :=
  { State.reset with
    mon := .armed { first := 0, more := [] }
    wait := some { hints := 0, ext0 := false }
    script := [.spurious] }

/-- Refutes O25: `waitWithoutDuty` has no duty, and its next step ends the wait. -/
theorem not_waitEndsOnlyOnDuty : ¬ Obligations.WaitEndsOnlyOnDuty := by
  intro h
  have hduty := h waitWithoutDuty _ rfl (step_spurious rfl rfl) rfl
  exact absurd hduty (by decide)

/-- Settles O27: each of P's turns passes and leaves the next one without a duty. -/
theorem waitWithoutDutyMayLast : Obligations.WaitWithoutDutyMayLast := by
  intro n
  induction n with
  | zero => exact fun s _ _ _ _ _ => ⟨s, rfl, rfl, rfl, rfl⟩
  | succ n ih =>
    intro s rest hw ho hd hscript
    rw [List.replicate_succ, List.cons_append] at hscript
    have howed : s.tick.owed = false := by simp [ho, hd]
    rw [runSteps_succ n s s.tick (step_self_stay hw ho hd hscript)]
    exact ih s.tick rest hw howed hd (by rw [State.tick_script, hscript, List.tail_cons])

/-! ### The exit -/

/-- Everything a step of a wait that leaves P waiting keeps: the wait, and what it owes. -/
theorem step_stays (hw : s.wait.isSome) (hs : step s = .next t) (hstay : t.wait.isSome) :
    t.wait = s.wait ∧ t.owed = s.tick.owed := by
  obtain ⟨_, -, hm⟩ := step_moves hs
  rcases hm.waiting hw with rfl | ⟨h, -⟩
  · cases hstay
  · rw [h]
    exact ⟨rfl, rfl⟩

/-- Settles O21: of the steps of a wait only the exit leaves P not waiting. -/
theorem waitExitTriggersTheMonitor : Obligations.WaitExitTriggersTheMonitor := by
  intro s t hw hs hend
  obtain ⟨_, -, hm⟩ := step_moves hs
  rcases hm.waiting hw with rfl | ⟨h, -⟩
  · exact ⟨rfl, rfl, rfl, fun _ => rfl⟩
  · rw [h] at hend
    exact absurd hend (Option.isSome_iff_ne_none.mp hw)

/-! ### The exit that is owed -/

@[simp] theorem State.returnFromHandler_script : s.returnFromHandler.script = s.script := by
  unfold State.returnFromHandler
  split <;> rfl

/-- No turn writes the script. -/
theorem Moves.script {tn : Turn} (hm : Moves s tn u) : u.script = s.script := by
  cases hm with
  | execute _ _ _ _ _ hx => rw [(exec_mwait_frame hx).1]
  | handlerReturn => exact State.returnFromHandler_script
  | store st seen => rw [State.storeEffect_eq]
  | _ => rfl

theorem step_script (h : step s = .next t) : t.script = s.script.tail := by
  obtain ⟨_, -, hm⟩ := step_moves h
  exact hm.script

theorem scriptKeepsText.step (h : scriptKeepsText s) (hs : step s = .next t) :
    scriptKeepsText t := by
  intro tn hmem st seen htn
  rw [step_script hs] at hmem
  rw [overlapsText, (step_sameText hs).1]
  exact h tn (List.mem_of_mem_tail hmem) st seen htn

/-- A turn during a wait answers a next state, unless it stores to the program text. -/
theorem runTurn_waiting_next (tn : Turn) (hw : s.wait.isSome)
    (htext : ∀ st seen, tn = .store st seen → ¬ overlapsText st s) :
    ∃ t, s.runTurn tn = .next t := by
  cases tn with
  | self pick => exact ⟨_, runTurn_self_waiting pick hw⟩
  | store st seen =>
    by_cases ha : st.agent = .self
    · exact ⟨_, runTurn_store_passes seen ha hw⟩
    · exact ⟨_, runTurn_store st seen (.inl ha) (htext st seen rfl)⟩
  | _ => exact ⟨_, rfl⟩

/-- Settles O26, by induction on the script: each of its turns ends the wait or leaves the exit
owed, and after the last one P moves, which then exits. -/
theorem owedExitHappens : Obligations.OwedExitHappens := by
  intro s
  induction hscript : s.script generalizing s with
  | nil =>
    intro hw ho _
    have hn : s.nextTurn = .self (Config.freePick s.draws) := by rw [State.nextTurn, hscript]
    exact ⟨1, _, by simp, runSteps_succ 0 _ _ (step_self_owed hn hw ho), rfl, rfl⟩
  | cons tn rest ih =>
    intro hw ho hk
    obtain ⟨t, hs⟩ : ∃ t, step s = .next t := by
      rw [step_cons hscript]
      exact runTurn_waiting_next (s := s.tick) tn hw (hk tn (by simp [hscript]))
    cases hend : t.wait with
    | none =>
      obtain ⟨hmon, -⟩ := waitExitTriggersTheMonitor s t hw hs hend
      exact ⟨1, t, by simp, runSteps_succ 0 _ _ hs, hend, hmon⟩
    | some w =>
      have hstay : t.wait.isSome := by rw [hend]; rfl
      have howed : t.owed = true := by
        rw [(step_stays hw hs hstay).2, State.tick_owed_iff hw]
        exact ho
      obtain ⟨k, u, hle, hrun, hexit⟩ :=
        ih t (by rw [step_script hs, hscript, List.tail_cons]) hstay (.inl howed) (hk.step hs)
      exact ⟨k + 1, u, Nat.succ_le_succ hle, by rw [runSteps_succ k s t hs, hrun], hexit⟩

/-! ### MWAIT as one instruction -/

/-- What a wait leaves of P: the registers, the handlers, what is with `TrapEntry`, and the
configuration (40_mwait.md R97, R101). -/
structure SameThread (s t : State) : Prop where
  cpu    : t.cpu = s.cpu
  frames : t.frames = s.frames
  trap   : t.trap = s.trap
  cfg    : t.cfg = s.cfg

theorem SameThread.refl (s : State) : SameThread s s := ⟨rfl, rfl, rfl, rfl⟩

theorem SameThread.trans (h₁ : SameThread s t) (h₂ : SameThread t u) : SameThread s u where
  cpu := h₂.cpu.trans h₁.cpu
  frames := h₂.frames.trans h₁.frames
  trap := h₂.trap.trans h₁.trap
  cfg := h₂.cfg.trans h₁.cfg

theorem step_sameThread (hw : s.wait.isSome) (hs : step s = .next t) : SameThread s t := by
  obtain ⟨hcpu, hframes, htrap, hcfg, -⟩ := waitingProcessorOnlyExits s t hw hs
  exact ⟨hcpu, hframes, htrap, hcfg⟩

/-- A run each step of which is a step of a wait keeps the thread. -/
theorem runSteps_sameThread {k : Nat}
    (hw : ∀ j < k, ∀ x, runSteps j s = .next x → x.wait.isSome)
    (h : runSteps k s = .next t) : SameThread s t := by
  induction k generalizing t with
  | zero => cases h; exact .refl s
  | succ k ih =>
    obtain ⟨v, hrun, hlast⟩ := runSteps_last k s t h
    have hv : v.wait.isSome := hw k (Nat.lt_succ_self k) v hrun
    have hbefore : SameThread s v := ih (fun j hj => hw j (Nat.lt_succ_of_lt hj)) hrun
    exact hbefore.trans (step_sameThread hv hlast)

/-- Settles O29: MWAIT has entered the wait with `pc` behind it, every step of the wait keeps the
thread, and the last one is the exit. -/
theorem waitEndsAtTheFollowingInstruction : Obligations.WaitEndsAtTheFollowingInstruction := by
  intro k s t u v hexec hwait hw hrun hlast hend
  obtain ⟨-, rfl⟩ := exec_mwait_waits hexec hwait
  have hu : u.wait.isSome := hw k le_rfl u hrun
  obtain ⟨hcpu, hframes, htrap, hcfg⟩ :=
    (runSteps_sameThread (fun j hj => hw j hj.le) hrun).trans (step_sameThread hu hlast)
  obtain ⟨hmon, -⟩ := waitExitTriggersTheMonitor u v hu hlast hend
  exact ⟨hcpu, hmon, hframes, htrap, hcfg⟩

/-! ### No wait without a fresh MONITOR -/

theorem exec_mwait_wait_of_not_armed (hno : ∀ r, s.mon ≠ .armed r) (h : exec .mwait s = .next t) :
    t.wait = none := by
  by_contra hne
  obtain ⟨⟨r, hr⟩, -⟩ := exec_mwait_waits h (Option.isSome_iff_ne_none.mpr hne)
  exact hno r hr

@[simp] theorem State.returnFromHandler_wait : s.returnFromHandler.wait = s.wait := by
  unfold State.returnFromHandler
  split <;> rfl

/-- With the monitor not armed no turn enters the wait. -/
theorem Moves.wait_of_not_armed {tn : Turn} (hm : Moves s tn u) (hw : s.wait = none)
    (hno : ∀ r, s.mon ≠ .armed r) : u.wait = none := by
  cases hm with
  | waitExit | signal | spurious => rfl
  | execute _ _ _ _ _ hx => exact exec_mwait_wait_of_not_armed hno hx
  | handlerReturn => exact State.returnFromHandler_wait.trans hw
  | store st seen => exact (State.storeEffect_wait st seen).trans hw
  | _ => exact hw

/-- Only a turn of the script that arms leaves an unarmed monitor armed. -/
theorem Moves.not_armed {tn : Turn} (hm : Moves s tn u) (hno : ∀ r, s.mon ≠ .armed r)
    (harm : ∀ a, tn ≠ .arm a) : ∀ r, u.mon ≠ .armed r := by
  rcases hm.mon with h | ⟨a, ha, -⟩ | h
  · rw [h]; exact hno
  · exact absurd ha (harm a)
  · exact h

theorem State.mem_script_of_nextTurn {tn : Turn} (h : s.nextTurn = tn)
    (hself : ∀ pick, tn ≠ .self pick) : tn ∈ s.script := by
  unfold State.nextTurn at h
  split at h
  · exact absurd h.symm (hself _)
  · next hscript => rw [hscript, h]; exact List.mem_cons_self

/-- No wait, the monitor not armed, and no MONITOR to come: 40_mwait.md R103. -/
def State.unmonitored (s : State) : Prop :=
  s.wait = none ∧ (∀ r, s.mon ≠ .armed r) ∧ ∀ a, Turn.arm a ∉ s.script

theorem State.unmonitored.step (h : s.unmonitored) (hs : step s = .next t) : t.unmonitored := by
  obtain ⟨hw, hno, hscript⟩ := h
  obtain ⟨tn, hn, hm⟩ := step_moves hs
  have harm : ∀ a, tn ≠ .arm a := by
    rintro a rfl
    exact hscript a (State.mem_script_of_nextTurn hn nofun)
  refine ⟨hm.wait_of_not_armed hw hno, hm.not_armed hno harm, fun a ha => ?_⟩
  rw [step_script hs] at ha
  exact hscript a (List.mem_of_mem_tail ha)

/-- Settles O30: `unmonitored` is kept by every step, so by every run. -/
theorem noWaitWithoutFreshMonitor : Obligations.NoWaitWithoutFreshMonitor := by
  intro k s u hw hno hscript hrun
  obtain ⟨hwait, hmon, -⟩ :=
    runSteps_keeps (P := State.unmonitored) (fun _ _ => State.unmonitored.step) k s u
      ⟨hw, hno, hscript⟩ hrun
  exact ⟨hwait, hmon⟩

end Sys2Proof.Machine

/-! PROOFS. The statements of the family 60_exceptions.md: where MWAIT may run, what enters the
wait, what is handed to `TrapEntry`, how a handler is entered and returns, and what a signal
replaces.
What may be the next step goes by the choices of P's turn; what a step leaves unchanged goes by
cases on `Moves`, one lemma for each field of the state. -/

namespace Sys2Proof.Machine

variable {s t u : State}

/-! ### Where MWAIT may run -/

theorem exec_mwait_waiting (hw : s.wait.isSome) :
    exec .mwait s = .fault .executeWhileWaiting := by
  rw [exec_mwait, execMwait, if_pos hw]

theorem exec_mwait_guest (hw : s.wait = none) (hg : s.cfg.guest = true) :
    exec .mwait s = .refused .inGuest := by
  simp [exec_mwait, execMwait, hw, hg]

theorem exec_mwait_inSmm (hw : s.wait = none) (hg : s.cfg.guest = false) (hs : s.inSmm = true) :
    exec .mwait s = .refused .inSystemManagementMode := by
  simp [exec_mwait, execMwait, hw, hg, hs]

/-- Where P may execute, MWAIT answers a next state, whatever its checks say. -/
theorem exec_mwait_total (hx : s.mayExecute) : ∃ t, exec .mwait s = .next t := by
  cases hc : mwaitCheck s.cpu s.cfg with
  | some x => exact ⟨_, exec_mwait_raises s hx hc⟩
  | none => exact ⟨_, exec_mwait_operates s hx ((mwaitCheck_none_iff _ _).mp hc)⟩

/-- Settles O13. -/
theorem mwaitStopsExactlyOutsideItsPlace : Obligations.MwaitStopsExactlyOutsideItsPlace := by
  intro s
  refine ⟨exec_mwait_waiting, exec_mwait_guest, fun hw hg hsmm => ?_, fun hw hg hno => ?_⟩
  · exact exec_mwait_inSmm hw hg (s.inSmm_iff.mpr hsmm)
  · exact exec_mwait_total ⟨hw, hg, Bool.eq_false_iff.mpr fun h => hno (s.inSmm_iff.mp h)⟩

/-! ### Entering the wait -/

/-- Of the turns of a P that does not wait only the execution of MWAIT leaves it waiting. -/
theorem Moves.enters_wait {tn : Turn} (hm : Moves s tn u) (hw : s.wait = none)
    (hu : u.wait.isSome) : s.mwaitAt s.cpu.pc ∧ exec .mwait s = .next u := by
  have hne : u.wait ≠ none := Option.isSome_iff_ne_none.mp hu
  cases hm with
  | execute _ _ _ _ hat hx => exact ⟨hat, hx⟩
  | waitExit | signal | spurious => exact absurd rfl hne
  | handlerReturn => exact absurd (State.returnFromHandler_wait.trans hw) hne
  | store st seen => exact absurd ((State.storeEffect_wait st seen).trans hw) hne
  | _ => exact absurd hw hne

/-- What MWAIT has found when it enters the wait, and what it records: 40_mwait.md R92. -/
theorem exec_mwait_wait_some {w : WaitCtx} (hx : exec .mwait s = .next t) (hw : t.wait = some w) :
    s.mayExecute ∧ (∃ r, s.mon = .armed r) ∧ MwaitAllowed s.cpu s.cfg ∧
    w.hints = s.cpu.rax.setWidth 32 ∧ w.ext0 = s.cpu.rcx.getLsbD 0 := by
  obtain ⟨hm, ⟨x, -, rfl⟩ | ⟨-, -, rfl⟩ | ⟨ha, harmed, rfl⟩⟩ := exec_mwait_next s t hx
  · exact absurd (hm.1.symm.trans hw) nofun
  · exact absurd (hm.1.symm.trans hw) nofun
  · cases hw
    exact ⟨hm, harmed, ha, eax_eq s.cpu, ext0_eq s.cpu⟩

/-- Settles O31: the tick changes nothing that MWAIT reads. -/
theorem onlyArmedMwaitEntersTheWait : Obligations.OnlyArmedMwaitEntersTheWait := by
  intro s t w hw hs ht
  obtain ⟨_, -, hm⟩ := step_moves hs
  obtain ⟨⟨h0, h1, h2⟩, hx⟩ := hm.enters_wait hw (by rw [ht]; rfl)
  obtain ⟨⟨-, hguest, -⟩, harmed, hallow, hhints, hext⟩ := exec_mwait_wait_some hx ht
  exact ⟨harmed, hallow, hguest, h0, h1, h2, hhints, hext⟩

/-! ### The choices before the next instruction -/

/-- Settles O43: an event that is not masked is one of the choices, and the last one executes. -/
theorem unmaskedEventMayBeDelivered : Obligations.UnmaskedEventMayBeDelivered := by
  intro s hw ht
  refine ⟨fun e he hsig hl hf => ?_, s.takeable.length, ?_⟩
  · have hm : s.notMasked e = true := (s.notMasked_iff e).mpr ⟨hl, hf⟩
    obtain ⟨pick, hp⟩ := runTurn_self_take hw ht ((s.mem_takeable e).mpr ⟨he, .inr hm⟩)
    exact ⟨pick, by rw [hp, s.takeEvent_event hsig, s.deliver_eq]⟩
  · exact runTurn_self_execute _ hw ht (Nat.mod_eq_of_lt (Nat.lt_succ_self _))

/-- The first pick takes the first of the events P may take. -/
theorem runTurn_self_take_first {e : Event} {l : List Event} (hw : s.wait = none)
    (ht : s.trap = none) (hl : s.takeable = e :: l) :
    s.runTurn (.self 0) = .next (s.takeEvent e) := by
  simp [runTurn_self_choose 0 hw ht, State.chooseTurn, hl]

/-- A pending signal is one of the choices, whatever else is pending. -/
theorem runTurn_self_signal {e : Event} (hw : s.wait = none) (ht : s.trap = none) (he : e ∈ s.pend)
    (hsig : Event.isSignal e = true) :
    ∃ pick, s.runTurn (.self pick) = .next (s.takeSignal e) := by
  rw [← s.takeEvent_signal hsig]
  exact runTurn_self_take hw ht ((s.mem_takeable e).mpr ⟨he, .inl hsig⟩)

/-- In a legal configuration the registers of the parameter fit, so a signal sets them as they
are. -/
theorem State.reinit_signalState (hc : s.cfg.wellFormed = true) (e : Event) (m : Monitor) :
    s.reinit (s.signalState e) m = { s with
      cpu := (s.signalState e).cpu, mon := m, wait := none, owed := false, trap := none,
      frames := [], pend := (s.signalState e).pend, unmasked := (s.signalState e).unmasked } := by
  rw [s.reinit_eq, Cfg.fit_of_fits _ _ (s.signalState_wellFormed hc e).1]

/-- Settles O48. -/
theorem resetSignalReplacesTheState : Obligations.ResetSignalReplacesTheState := by
  intro s hw ht hc he
  obtain ⟨pick, hp⟩ := runTurn_self_signal hw ht he rfl
  exact ⟨pick, hp.trans (congrArg _ (State.reinit_signalState hc .reset .idle))⟩

/-- Settles O49: both signals read the parameter `InitState`. -/
theorem initSignalsReplaceTheState : Obligations.InitSignalsReplaceTheState := by
  intro s e hw ht hc hinit he
  have hsig : Event.isSignal e = true := by rcases hinit with rfl | rfl <;> rfl
  have hstate : s.signalState e = s.cfg.initState := by rcases hinit with rfl | rfl <;> rfl
  obtain ⟨pick, hp⟩ := runTurn_self_signal hw ht he hsig
  obtain ⟨m, harm, hm⟩ := s.takeSignal_eq e
  refine ⟨pick, _, hp, ?_, ?_⟩
  · rw [hm]
    exact harm
  · rw [hm, State.reinit_signalState hc, hstate]

/-- Settles O46. -/
theorem trapEntryLeavesTheMonitor : Obligations.TrapEntryLeavesTheMonitor := by
  intro s r pick hw ht
  exact ⟨_, runTurn_self_trap pick r hw ht, rfl, rfl, hw, rfl, fun _ => rfl, rfl, rfl, rfl⟩

/-! ### A handler from its entry to its return -/

theorem runTurn_handlerReturn {f : Frame} {fs : List Frame} (hw : s.wait = none)
    (ht : s.trap = none) (hf : s.frames = f :: fs) :
    s.runTurn .handlerReturn =
      .next { s with frames := fs, cpu := returnCpu s.cfg f s.cpu s.draws } := by
  rw [State.runTurn, if_pos (State.free_iff.mpr ⟨hw, ht⟩), s.returnFromHandler_cons f fs hf]

/-- The handler of an event returns to the interrupted code: 60_exceptions.md R125, R129. -/
theorem returnCpu_event (c : Cfg) {f : Frame} {e : Event} {a : Nat} (hf : f.record = .event e a)
    (cpu : Cpu) (draw : Nat) :
    (returnCpu c f cpu draw).pc = a ∧ (returnCpu c f cpu draw).mode = f.mode := by
  simp [returnCpu, hf]

theorem step_deliver_first {e : Event} {l : List Event} {rest : List Turn} (hw : s.wait = none)
    (ht : s.trap = none) (hl : s.takeable = e :: l) (hsig : Event.isSignal e = false)
    (hscript : s.script = .self 0 :: rest) : step s = .next (s.tick.deliver e) := by
  rw [step_cons hscript, runTurn_self_take_first (s := s.tick) hw ht hl,
    State.takeEvent_event _ hsig]

theorem step_trapEntry {r : TrapRecord} {pick : Nat} {rest : List Turn} (hw : s.wait = none)
    (ht : s.trap = some r) (hscript : s.script = .self pick :: rest) :
    step s = .next (s.tick.trapEntry r) := by
  rw [step_cons hscript, runTurn_self_trap (s := s.tick) pick r hw ht]

theorem step_handlerReturn {f : Frame} {fs : List Frame} {rest : List Turn} (hw : s.wait = none)
    (ht : s.trap = none) (hf : s.frames = f :: fs) (hscript : s.script = .handlerReturn :: rest) :
    step s = .next { s.tick with
      frames := fs, cpu := returnCpu s.cfg f s.cpu s.tick.draws } := by
  rw [step_cons hscript, runTurn_handlerReturn (s := s.tick) hw ht hf]
  rfl

/-- From a delivered event on, through the entry and the return of its handler: execution goes on at
the address handed over, in the mode of the interrupted code. -/
theorem runSteps_enter_return {e : Event} {a b : Nat} {rest : List Turn} (hw : s.wait = none)
    (ht : s.trap = some (.event e a)) (hscript : s.script = .self b :: .handlerReturn :: rest) :
    ∃ u, runSteps 2 s = .next u ∧ u.cpu.pc = a ∧ u.cpu.mode = s.cpu.mode ∧ u.wait = none ∧
      u.mon = s.mon ∧ u.pend = s.pend ∧ u.frames = s.frames ∧ u.trap = none := by
  have enter := step_trapEntry hw ht hscript
  have hrest : (s.tick.trapEntry (.event e a)).script = .handlerReturn :: rest :=
    congrArg List.tail hscript
  have leave := step_handlerReturn (s := s.tick.trapEntry (.event e a)) hw rfl rfl hrest
  have back := returnCpu_event s.cfg (f := { record := .event e a, mode := s.cpu.mode }) rfl
  exact ⟨_, (runSteps_succ 1 _ _ enter).trans (runSteps_succ 0 _ _ leave), (back _ _).1,
    (back _ _).2, hw, rfl, rfl, rfl, rfl⟩

/-- An event that would be delivered obliges the wait to end: 40_mwait.md R93, R94. -/
theorem State.duty_of_notMasked {e : Event} (hw : s.wait.isSome) (he : e ∈ s.pend)
    (hm : s.notMasked e = true) : s.duty = true := by
  obtain ⟨w, hwait⟩ := Option.isSome_iff_exists.mp hw
  obtain ⟨hl, hf⟩ := (s.notMasked_iff e).mp hm
  rw [dutyIsExactlyTheListedEvents s w hwait]
  cases e with
  | extint i => exact .inr (.inr ⟨i, he, .inr ⟨by simpa using hf, hl⟩⟩)
  | _ => exact .inr (.inl ⟨_, he, by simp⟩)

/-- Settles O47: the event is a duty, so P's first turn is the exit, and the delivery that follows
hands over the address behind MWAIT. -/
theorem handlerReturnsAfterMwait : Obligations.HandlerReturnsAfterMwait := by
  intro s e a b rest hw ht hp hsig hl hf hscript
  have hm : s.notMasked e = true := (s.notMasked_iff e).mpr ⟨hl, hf⟩
  have hduty : s.duty = true := State.duty_of_notMasked hw (by simp [hp]) hm
  have exit : step s = .next s.tick.waitExit :=
    step_self_owed (State.nextTurn_cons hscript) hw (.inr hduty)
  have htake : s.takeable = [e] := by simp [State.takeable, hp, hm]
  have hrest : s.tick.waitExit.script = .self 0 :: .self b :: .handlerReturn :: rest :=
    congrArg List.tail hscript
  have deliver := step_deliver_first (s := s.tick.waitExit) rfl ht htake hsig hrest
  obtain ⟨u, hrun, hpc, hmode, hwait, hmon, hpend, hframes, htrap⟩ :=
    runSteps_enter_return (s := s.tick.waitExit.tick.deliver e) rfl rfl (congrArg List.tail hrest)
  have hnone : s.pend.filter (· != e) = [] := by simp [hp]
  exact ⟨u, by rw [runSteps_succ 3 _ _ exit, runSteps_succ 2 _ _ deliver, hrun], hpc, hmode, hwait,
    hmon, hpend.trans hnone, hframes, htrap⟩

/-! ### What is handed to TrapEntry -/

/-- P may hand `r` over: an exception of MWAIT's own, or a pending event that is not masked
(60_exceptions.md R124, R128). -/
def State.mayHandOver (s : State) (r : TrapRecord) : Prop :=
  (r = .exn .ud none s.cpu.pc ∧ ¬ MwaitAllowed s.cpu s.cfg) ∨
  (r = .exn .gp (gpCode s.cpu.mode) s.cpu.pc ∧ ¬ MwaitAllowed s.cpu s.cfg) ∨
  (∃ e ∈ s.pend, r = .event e s.cpu.pc ∧ Event.isSignal e = false ∧ e ∈ s.unmasked ∧
    (s.cpu.intFlag = true ∨ ∀ i, e ≠ .extint i))

/-- MWAIT leaves the record, or hands over one of its two exceptions. -/
theorem exec_mwait_trap (hx : exec .mwait s = .next t) :
    t.trap = s.trap ∨ (t.cpu = s.cpu ∧ ∃ r, t.trap = some r ∧ s.mayHandOver r) := by
  obtain ⟨-, ⟨x, hc, rfl⟩ | ⟨-, -, rfl⟩ | ⟨-, -, rfl⟩⟩ := exec_mwait_next s t hx
  · obtain ⟨hno, ⟨rfl, -⟩ | ⟨rfl, -⟩⟩ := mwaitCheck_some _ _ x hc
    · rw [s.raiseExn_ud]
      exact .inr ⟨rfl, _, rfl, .inl ⟨rfl, hno⟩⟩
    · rw [s.raiseExn_gp]
      exact .inr ⟨rfl, _, rfl, .inr (.inl ⟨rfl, hno⟩)⟩
  · exact .inl rfl
  · exact .inl rfl

/-- A turn leaves the record with `TrapEntry`, takes it away, or is P's own and hands one over. -/
theorem Moves.trap {tn : Turn} (hm : Moves s tn u) :
    u.trap = s.trap ∨ u.trap = none ∨
    (u.cpu = s.cpu ∧ s.wait = none ∧ (∃ pick, tn = .self pick) ∧
      ∃ r, u.trap = some r ∧ s.mayHandOver r) := by
  cases hm with
  | trapEntry | signal => exact .inr (.inl rfl)
  | deliver pick e hw _ he hsig hno =>
    exact .inr (.inr ⟨rfl, hw, ⟨pick, rfl⟩, _, rfl,
      .inr (.inr ⟨e, he, rfl, hsig, (s.notMasked_iff e).mp hno⟩)⟩)
  | execute pick _ _ _ _ hx =>
    rcases exec_mwait_trap hx with h | ⟨hcpu, hr⟩
    · exact .inl h
    · exact .inr (.inr ⟨hcpu, (exec_mwait_next _ _ hx).1.1, ⟨pick, rfl⟩, hr⟩)
  | handlerReturn f fs _ _ hf => exact .inl (by rw [s.returnFromHandler_cons f fs hf])
  | store => exact .inl (by rw [State.storeEffect_eq])
  | _ => exact .inl rfl

/-- Settles O45. -/
theorem onlyExceptionsAndDeliveriesAreHandedOver :
    Obligations.OnlyExceptionsAndDeliveriesAreHandedOver := by
  intro s t r hnone hs hr
  obtain ⟨tn, rfl, hm⟩ := step_moves hs
  rcases hm.trap with h | h | ⟨hcpu, hw, hself, r', hr', hmay⟩
  · exact absurd (hr.symm.trans (h.trans hnone)) nofun
  · exact absurd (hr.symm.trans h) nofun
  · obtain rfl : r' = r := Option.some.inj (hr'.symm.trans hr)
    exact ⟨hcpu, hw, hself, hmay⟩

/-! ### Signals and the pending events -/

/-- The turn is P's own, and P may take the pending signal `e` on it. -/
def State.signalTurn (s : State) (tn : Turn) (e : Event) : Prop :=
  (∃ pick, tn = .self pick) ∧ s.wait = none ∧ s.trap = none ∧ e ∈ s.pend ∧
    Event.isSignal e = true

theorem State.signalTurn.takesSignal {e : Event} (h : s.tick.signalTurn s.nextTurn e) :
    s.takesSignal e := by
  obtain ⟨hself, hw, ht, he, hsig⟩ := h
  exact ⟨hself, hw, ht, he, (Event.isSignal_iff e).mp hsig⟩

/-- A pending event stays pending, or it is withdrawn, a signal is taken, or it is not masked, as
its delivery asks. -/
theorem Moves.mem_pend {tn : Turn} {e : Event} (hm : Moves s tn u) (he : e ∈ s.pend) :
    e ∈ u.pend ∨ tn = .withdraw e ∨ s.notMasked e = true ∨
    ∃ e', s.signalTurn tn e' ∧ u.pend = (s.signalState e').pend := by
  cases hm with
  | signal pick e' _ hw ht he' hsig =>
    exact .inr (.inr (.inr ⟨e', ⟨⟨pick, rfl⟩, hw, ht, he', hsig⟩, rfl⟩))
  | deliver _ e' _ _ _ _ hno =>
    by_cases h : e = e'
    · exact .inr (.inr (.inl (h ▸ hno)))
    · exact .inl ((s.mem_dropEvent e' e).mpr ⟨he, h⟩)
  | withdraw e' =>
    by_cases h : e = e'
    · exact .inr (.inl (h ▸ rfl))
    · exact .inl ((s.mem_dropEvent e' e).mpr ⟨he, h⟩)
  | raise e' => exact .inl ((s.mem_raiseEvent e' e).mpr (.inl he))
  | execute _ _ _ _ _ hx =>
    rw [(exec_mwait_frame hx).1]
    exact .inl he
  | handlerReturn f fs _ _ hf => exact .inl (by rwa [s.returnFromHandler_cons f fs hf])
  | store => exact .inl (by rwa [State.storeEffect_eq])
  | _ => exact .inl he

theorem State.notMasked_extint_iff (s : State) (i : Nat) :
    s.notMasked (.extint i) = true ↔ Event.extint i ∈ s.unmasked ∧ s.cpu.intFlag = true := by
  simp [s.notMasked_iff]

/-- An event handed over by P was not masked. -/
theorem State.mayHandOver.notMasked {e : Event} {a : Nat} (h : s.mayHandOver (.event e a)) :
    s.notMasked e = true := by
  obtain ⟨h, -⟩ | ⟨h, -⟩ | ⟨e', -, h, -, hno⟩ := h
  · cases h
  · cases h
  · cases h
    exact (s.notMasked_iff e).mpr hno

/-- Settles O44: the hand-over and the delivery both ask that the interrupt is not masked. -/
theorem maskedInterruptStaysPending : Obligations.MaskedInterruptStaysPending := by
  intro s t i he hmask hturn hs
  obtain ⟨tn, rfl, hm⟩ := step_moves hs
  have hmasked : ¬ s.tick.notMasked (.extint i) = true := by
    rw [State.notMasked_extint_iff]
    rcases hmask with h | h <;> simp [h]
  refine ⟨fun a ha => ?_, ?_⟩
  · rcases hm.trap with h | h | ⟨-, -, -, r, hr, hmay⟩
    · exact h.symm
    · exact absurd (ha.symm.trans h) nofun
    · obtain rfl : r = .event (.extint i) a := Option.some.inj (hr.symm.trans ha)
      exact absurd hmay.notMasked hmasked
  · rcases hm.mem_pend he with h | h | h | ⟨e, hsig, hpend⟩
    · exact .inl h
    · exact absurd h hturn
    · exact absurd h hmasked
    · exact .inr ⟨e, hsig.takesSignal, hpend⟩

/-! ### The handlers entered and the masking -/

/-- A turn leaves the handlers entered, or `TrapEntry` acts, the latest handler returns, or a signal
is taken. -/
theorem Moves.frames {tn : Turn} (hm : Moves s tn u) :
    u.frames = s.frames ∨
    ((∃ pick, tn = .self pick) ∧ s.wait = none ∧
      ∃ r, s.trap = some r ∧ u.frames = { record := r, mode := s.cpu.mode } :: s.frames) ∨
    (tn = .handlerReturn ∧ s.wait = none ∧ s.trap = none ∧
      ∃ f fs, s.frames = f :: fs ∧
        u = { s with frames := fs, cpu := returnCpu s.cfg f s.cpu s.draws }) ∨
    ((∃ e, s.signalTurn tn e) ∧ u.frames = []) := by
  cases hm with
  | trapEntry pick r hw ht => exact .inr (.inl ⟨⟨pick, rfl⟩, hw, r, ht, rfl⟩)
  | handlerReturn f fs hw ht hf =>
    exact .inr (.inr (.inl ⟨rfl, hw, ht, f, fs, hf, s.returnFromHandler_cons f fs hf⟩))
  | signal pick e _ hw ht he hsig =>
    exact .inr (.inr (.inr ⟨⟨e, ⟨pick, rfl⟩, hw, ht, he, hsig⟩, rfl⟩))
  | execute _ _ _ _ _ hx => exact .inl (by rw [(exec_mwait_frame hx).1])
  | store st seen => exact .inl (State.storeEffect_frames st seen)
  | _ => exact .inl rfl

/-- Settles O59. -/
theorem handlersChangeOnlyByEntryReturnAndSignals :
    Obligations.HandlersChangeOnlyByEntryReturnAndSignals := by
  intro s t hs
  obtain ⟨tn, rfl, hm⟩ := step_moves hs
  rcases hm.frames with h | h | ⟨hn, hw, ht, f, fs, hf, rfl⟩ | ⟨⟨e, hsig⟩, h⟩
  · exact .inl h
  · exact .inr (.inl h)
  · refine .inr (.inr (.inl ⟨hn, hw, ht, f, hf, ?_, fun e a hr => returnCpu_event _ hr _ _⟩))
    rw [s.tick_of_not_waiting hw]
  · exact .inr (.inr (.inr ⟨⟨e, hsig.takesSignal⟩, h⟩))

/-- A turn leaves what the platform lets through, or it is the platform's own, or a signal is
taken. -/
theorem Moves.unmasked {tn : Turn} (hm : Moves s tn u) :
    u.unmasked = s.unmasked ∨
    (tn = .setUnmasked u.unmasked ∧ u = { s with unmasked := u.unmasked }) ∨
    ∃ e, s.signalTurn tn e ∧ u.unmasked = (s.signalState e).unmasked := by
  cases hm with
  | setUnmasked l => exact .inr (.inl ⟨rfl, rfl⟩)
  | signal pick e _ hw ht he hsig => exact .inr (.inr ⟨e, ⟨⟨pick, rfl⟩, hw, ht, he, hsig⟩, rfl⟩)
  | execute _ _ _ _ _ hx => exact .inl (by rw [(exec_mwait_frame hx).1])
  | handlerReturn f fs _ _ hf => exact .inl (by rw [s.returnFromHandler_cons f fs hf])
  | store => exact .inl (by rw [State.storeEffect_eq])
  | _ => exact .inl rfl

/-- Settles O60. -/
theorem maskingChangesOnlyByThePlatformAndSignals :
    Obligations.MaskingChangesOnlyByThePlatformAndSignals := by
  intro s t hs
  obtain ⟨tn, rfl, hm⟩ := step_moves hs
  rcases hm.unmasked with h | h | ⟨e, hsig, h⟩
  · exact .inl h
  · exact .inr (.inl h)
  · exact .inr (.inr ⟨e, hsig.takesSignal, h⟩)

end Sys2Proof.Machine

/-! PROOFS. The statements of the family 70_reset_and_hazards.md: the first MWAIT after reset, and a
masked external interrupt during the wait. -/

namespace Sys2Proof.Machine

variable {s : State}

/-! ### Masked external interrupts -/

/-- 40_mwait.md R94: where `IF` masks the external interrupts and the extension does not let them
through, none of them is a duty. -/
theorem State.dutyInt_of_masked {w : WaitCtx} (hext : w.ext0 = false)
    (hflag : s.cpu.intFlag = false) : s.dutyInt w = false := by
  rw [Bool.eq_false_iff, ne_eq, s.dutyInt_iff]
  simp [hext, hflag]

/-- The masked wait is obliged to end by the unconditional duties alone. -/
theorem State.duty_of_masked {w : WaitCtx} (hw : s.wait = some w) (hext : w.ext0 = false)
    (hflag : s.cpu.intFlag = false) : s.duty = s.dutyUncond := by
  rw [s.duty_eq hw, State.dutyInt_of_masked hext hflag, Bool.or_false]

/-- An external interrupt is none of the events that end the wait whatever the flags. -/
theorem State.raiseEvent_extint_dutyUncond (s : State) (i : Nat) :
    (s.raiseEvent (.extint i)).dutyUncond = s.dutyUncond := by
  have hmon : (s.raiseEvent (.extint i)).mon = s.mon := rfl
  rw [Bool.eq_iff_iff, State.dutyUncond_iff, State.dutyUncond_iff, hmon]
  simp [s.mem_raiseEvent, or_and_right, exists_or]

/-- Settles O28: both duties are the unconditional ones, which no external interrupt is. -/
theorem maskedInterruptIsNoDuty : Obligations.MaskedInterruptIsNoDuty := by
  intro s w i hw hext hflag
  calc (s.raiseEvent (.extint i)).duty
    _ = (s.raiseEvent (.extint i)).dutyUncond := State.duty_of_masked hw hext hflag
    _ = s.dutyUncond := s.raiseEvent_extint_dutyUncond i
    _ = s.duty := (State.duty_of_masked hw hext hflag).symm

/-! ### The first MWAIT after reset -/

/-- The reset state passes the checks of 40_mwait.md R80 (logs 6 and 7). -/
theorem mwaitAllowed_reset : MwaitAllowed State.reset.cpu State.reset.cfg :=
  (mwaitCheck_none_iff _ _).mp (by decide)

/-- Settles O56: the placed MWAIT executes and finds the monitor of the reset state idle. -/
theorem firstMwaitAfterResetFallsThrough : Obligations.FirstMwaitAfterResetFallsThrough := by
  have hexec := State.reset.step_placeAtPc_mwait rfl rfl (by decide) mwaitAllowed_reset
  have hidle : ∀ r, (State.reset.placeAtPc (encode .mwait)).ticked.mon ≠ .armed r := nofun
  rw [mwaitOperate_not_armed _ hidle, State.completeMwait_eq] at hexec
  exact ⟨rfl, rfl, _, hexec, rfl, rfl, rfl, rfl⟩

end Sys2Proof.Machine
